-- ==== Sys2Proof/Word.lean ====
section
/-! DEFINITION. The word type and the other fixed bit widths of the machine (spec/00_scope.md R7, R10). -/

namespace Sys2Proof

/-- A word: 16 bits, also the unit of memory and the width of every register (R7, R10). -/
abbrev Word := BitVec 16

/-- The 32-bit intermediate of the arithmetic and shift operations (R151). -/
abbrev Wide := BitVec 32

/-- A 6-bit operand field of a header word (R70). -/
abbrev OpField := BitVec 6

/-- One byte. No instruction sees a byte (R52): only the host's memory cells (`Host.Cell`) are bytes. -/
abbrev Byte := BitVec 8

end Sys2Proof
end

