-- ==== Sys2Proof/Config.lean ====
section
/-! DEFINITION. The parameters the spec leaves open (spec/00_scope.md R8), as plain data: `Config` holds those a step
reads, `ResetParams` those only the creation of the machine reads.

A claim about the machine is a claim for EVERY `Config`: `State` carries its configuration, no instruction writes it, and
a statement over all states is a statement over all settings (spec/00_scope.md R8: "A rule that names no parameter holds
for every value"). The spec's defaults are in `Machine/Params.lean`. -/

namespace Sys2Proof

/-- `DIV_O_RULE` (R8, R157, decision D11): what DIV writes to O. -/
inductive DivORule where
  | highHalf
  | fraction
deriving DecidableEq, Repr

/-- `SHR_O_RULE` (R8, R160, decision D12): what SHR writes to O. -/
inductive ShrORule where
  | highHalf
  | fraction
deriving DecidableEq, Repr

/-- `SHIFT_RULE` (R8, R159, R160, decision D13): whether a shift count is taken whole or modulo 32. -/
inductive ShiftRule where
  | exact
  | mod32
deriving DecidableEq, Repr

/-- `O_WRITE_ORDER` (R8, R152, decision D10): which of the write-back to A and the update of O comes last. -/
inductive OWriteOrder where
  | aLast
  | oLast
deriving DecidableEq, Repr

/-- The open parameters a step depends on (R8). -/
structure Config where
  /-- `HALT_SUBOP`: the sub-opcode that halts, or none (R9, R196, decision D1). -/
  haltSubop : Option OpField
  /-- `JSR_CYCLES` (R190, decision D2). -/
  jsrCycles : Nat
  /-- `EXTRA_WORD_CYCLES` (R119, decision D3, conflict C1). -/
  extraWordCycles : Nat
  /-- `DIV_O_RULE` (R157, decision D11). -/
  divORule : DivORule
  /-- `SHR_O_RULE` (R160, decision D12). -/
  shrORule : ShrORule
  /-- `SHIFT_RULE` (R159, R160, decision D13). -/
  shiftRule : ShiftRule
  /-- `O_WRITE_ORDER` (R152, decision D10). -/
  oWriteOrder : OWriteOrder
  /-- `NONBASIC_A_RESOLVED` (R127, R128, decision D14, conflict C4). -/
  nonbasicAResolved : Bool
deriving DecidableEq, Repr

/-- A legal configuration: `HALT_SUBOP` is never 0x01 (R9). -/
abbrev Config.wf (c : Config) : Prop := c.haltSubop ≠ some 0x01#6

/-- The open parameters that only the creation of the machine reads (R8, R231, R234, decisions D4 and D5). No step reads
them, so they are no part of `State`. -/
structure ResetParams where
  /-- `RESET_GPR` (R24). -/
  gpr : Vector Word 8
  /-- `RESET_SP` (R28). -/
  sp : Word
  /-- `RESET_O` (R29). -/
  o : Word
  /-- `RESET_MEM_FILL`: one word for each address the image does not cover (R231). -/
  memFill : Word → Word

end Sys2Proof
end

