-- ==== Sys2Proof/Machine/Flags.lean ====
section
/-! DEFINITION. The result and the new O of each ALU operation, and the condition of each conditional
(spec/41_alu.md R150-R164, spec/42_conditional.md R181-R184). Every value is unsigned (R150). The machine has no flag but O
(R30). -/

namespace Sys2Proof.Machine

/-- The pair `(res, onew)` of R151: `onew = none` leaves O unchanged. -/
structure AluOut where
  res : Word
  onew : Option Word
deriving DecidableEq, Repr

/-- `zext_32(w)` (R11). -/
def zext32 (w : Word) : Wide := w.setWidth 32

/-- `t[15:0]` of an intermediate. -/
def lowHalf (t : Wide) : Word := t.extractLsb' 0 16

/-- `t[31:16]` of an intermediate. -/
def highHalf (t : Wide) : Word := t.extractLsb' 16 16

/-- The two halves of an intermediate as result and new O (R151). -/
def halves (t : Wide) : AluOut := ⟨lowHalf t, some (highHalf t)⟩

/-- SET (R153). -/
def aluSet (_va vb : Word) : AluOut := ⟨vb, none⟩

/-- ADD (R154). -/
def aluAdd (va vb : Word) : AluOut := halves (zext32 va + zext32 vb)

/-- SUB (R155): the difference is taken modulo 2^32. -/
def aluSub (va vb : Word) : AluOut := halves (zext32 va - zext32 vb)

/-- MUL (R156). -/
def aluMul (va vb : Word) : AluOut := halves (zext32 va * zext32 vb)

/-- DIV (R157): division by zero gives 0 and O = 0. -/
def aluDiv (rule : DivORule) (va vb : Word) : AluOut :=
  if vb = 0x0000#16 then ⟨0x0000#16, some 0x0000#16⟩
  else
    { res := BitVec.ofNat 16 (va.toNat / vb.toNat)
      onew :=
        match rule with
        | .highHalf => some 0x0000#16
        | .fraction => some (BitVec.ofNat 16 (va.toNat * 2 ^ 16 / vb.toNat)) }

/-- MOD (R158): a remainder by zero is 0, and O is never written (conflict C2). -/
def aluMod (va vb : Word) : AluOut :=
  if vb = 0x0000#16 then ⟨0x0000#16, none⟩ else ⟨BitVec.ofNat 16 (va.toNat % vb.toNat), none⟩

/-- The shift count `n` of R159 and R160. -/
def shiftCount (rule : ShiftRule) (vb : Word) : Nat :=
  match rule with
  | .exact => vb.toNat
  | .mod32 => vb.toNat % 32

/-- SHL (R159): the shift is exact, then cut to 32 bits. -/
def aluShl (rule : ShiftRule) (va vb : Word) : AluOut := halves (zext32 va <<< shiftCount rule vb)

/-- SHR (R160): a logical shift, zeros from above. -/
def aluShr (shiftRule : ShiftRule) (oRule : ShrORule) (va vb : Word) : AluOut :=
  let n := shiftCount shiftRule vb
  let t := zext32 va >>> n
  { res := lowHalf t
    onew :=
      match oRule with
      | .highHalf => some (highHalf t)
      | .fraction => some (lowHalf ((zext32 va <<< 16) >>> n)) }

/-- AND (R161). -/
def aluAnd (va vb : Word) : AluOut := ⟨va &&& vb, none⟩

/-- BOR (R162). -/
def aluBor (va vb : Word) : AluOut := ⟨va ||| vb, none⟩

/-- XOR (R163). -/
def aluXor (va vb : Word) : AluOut := ⟨va ^^^ vb, none⟩

/-- The condition of IFE (R181). -/
def condIfe (va vb : Word) : Bool := decide (va = vb)

/-- The condition of IFN (R182). -/
def condIfn (va vb : Word) : Bool := decide (va ≠ vb)

/-- The condition of IFG (R183), unsigned (decision D23). -/
def condIfg (va vb : Word) : Bool := decide (vb.toNat < va.toNat)

/-- The condition of IFB (R184). -/
def condIfb (va vb : Word) : Bool := decide (va &&& vb ≠ 0x0000#16)

end Sys2Proof.Machine
end

