-- ==== Sys2Proof/Machine/Params.lean ====
section
/-! DEFINITION. The spec's default for every open parameter (spec/00_scope.md R8, spec/92_eei_decisions.md). Nothing but
`State.reset`, `decodeTableWord` and the tests reads these values: every statement quantifies over all configurations.

DESIGN CHOICE (log entry 1): `HALT_SUBOP` is OPEN and has no default. The value here is `none`, the setting of the spec's own
test vectors (spec/95_test_vectors.md, conventions). Unsafe: a claim about a run from `State.reset` alone leans on it. -/

namespace Sys2Proof.Machine

/-- The defaults of the parameters a step reads (R8). -/
def defaultConfig : Config where
  haltSubop := none
  jsrCycles := 2
  extraWordCycles := 1
  divORule := .highHalf
  shrORule := .highHalf
  shiftRule := .exact
  oWriteOrder := .aLast
  nonbasicAResolved := false

/-- The defaults of the reset parameters (R8, decisions D4 and D5): all zero. DESIGN CHOICE of the spec itself
(log entry 2). Unsafe. -/
def defaultReset : ResetParams where
  gpr := Vector.replicate 8 0x0000#16
  sp := 0x0000#16
  o := 0x0000#16
  memFill := fun _ => 0x0000#16

end Sys2Proof.Machine
end

