-- ==== Sys2Proof/Syntax.lean ====
section
/-! DEFINITION. The instructions as syntax: registers, the operand forms of spec/30_encoding.md R73, and one constructor of
`Instr` for each row of spec/opcode_table.json.

An `Instr` is what ONE HEADER WORD says (R70, R112). The extra words of its operands are no part of it: the engine never
computes an instruction's length, it fetches an extra word at the pc when it resolves the operand that needs it (R77, R119),
and so do the meanings. -/

namespace Sys2Proof

/-- The eight general registers in the order of their indexes 0 to 7 (R18, R22). -/
inductive Reg where
  | A | B | C | X | Y | Z | I | J
deriving DecidableEq, Repr

/-- The 64 operand forms of a 6-bit field (R73). -/
inductive Operand where
  /-- 0x00-0x07: register direct (R113). -/
  | reg (r : Reg)
  /-- 0x08-0x0F: [register] (R113). -/
  | ind (r : Reg)
  /-- 0x10-0x17: [register + next word] (R114). -/
  | indNext (r : Reg)
  /-- 0x18: [SP], then SP += 1 (R115). -/
  | pop
  /-- 0x19: [SP] (R116). -/
  | peek
  /-- 0x1A: SP -= 1, then [SP] (R117). -/
  | push
  /-- 0x1B: the stack pointer itself (R118). -/
  | sp
  /-- 0x1C: the program counter itself (R118). -/
  | pc
  /-- 0x1D: the overflow register itself (R118). -/
  | o
  /-- 0x1E: [next word] (R120). -/
  | memNext
  /-- 0x1F: the next word as a literal (R120). -/
  | litNext
  /-- 0x20-0x3F: an embedded literal 0 to 0x1F (R121). -/
  | lit (v : BitVec 5)
deriving DecidableEq, Repr

/-- One constructor per row of the opcode table (R78, R79). Operand A stands before operand B. The two non-basic forms whose
sub-opcode is not fixed by their name carry it, so that no bit of a header word is dropped. -/
inductive Instr where
  | set (a b : Operand)
  | add (a b : Operand)
  | sub (a b : Operand)
  | mul (a b : Operand)
  | div (a b : Operand)
  | mod (a b : Operand)
  | shl (a b : Operand)
  | shr (a b : Operand)
  | and (a b : Operand)
  | bor (a b : Operand)
  | xor (a b : Operand)
  | ife (a b : Operand)
  | ifn (a b : Operand)
  | ifg (a b : Operand)
  | ifb (a b : Operand)
  /-- Sub-opcode 0x01: jump to subroutine (R190). -/
  | jsr (b : Operand)
  /-- Sub-opcode `HALT_SUBOP` (R196). -/
  | halt (subop : OpField) (b : Operand)
  /-- Every other sub-opcode: a no-op with a diagnostic (R197). -/
  | reserved (subop : OpField) (b : Operand)
deriving DecidableEq, Repr

end Sys2Proof
end

