-- ==== Sys2Proof/WellFormed.lean ====
section
/-! DEFINITION. Which instructions a configuration has (spec/30_encoding.md R79, spec/43_nonbasic.md R195). Operands and
registers are well-formed by their types; only the sub-opcodes of the non-basic forms carry a condition. -/

namespace Sys2Proof

/-- `i` is an instruction of a machine configured by `c`: a HALT carries `HALT_SUBOP`, which is not 0x01 (R9, R196), and a
reserved form any sub-opcode other than 0x01 and `HALT_SUBOP` (R197). -/
def Instr.wf (c : Config) : Instr → Bool
  | .halt subop _ => decide (c.haltSubop = some subop) && decide (subop ≠ 0x01#6)
  | .reserved subop _ => decide (c.haltSubop ≠ some subop) && decide (subop ≠ 0x01#6)
  | .set _ _ | .add _ _ | .sub _ _ | .mul _ _ | .div _ _ | .mod _ _ | .shl _ _ | .shr _ _
  | .and _ _ | .bor _ _ | .xor _ _ | .ife _ _ | .ifn _ _ | .ifg _ _ | .ifb _ _ | .jsr _ => true

end Sys2Proof
end

