-- ==== Sys2Proof/Decode.lean ====
section
/-! DEFINITION. Decoding a header word and encoding an instruction (spec/30_encoding.md R70, R73, R78, R79, R83).

Every 16-bit header word decodes to an instruction (R80), so `decode` is total and refuses nothing: a defective encoding is an
instruction of its own (`Instr.reserved`) or an instruction whose write is cancelled (a literal destination). -/

namespace Sys2Proof

/-! ## Register numbers (R18, R22) -/

/-- The index of a register: A=0, B=1, C=2, X=3, Y=4, Z=5, I=6, J=7. -/
def Reg.num : Reg → Fin 8
  | .A => 0 | .B => 1 | .C => 2 | .X => 3 | .Y => 4 | .Z => 5 | .I => 6 | .J => 7

/-- The register with a given 3-bit index. -/
def Reg.ofBits (n : BitVec 3) : Reg :=
  match n.toNat with
  | 0 => .A | 1 => .B | 2 => .C | 3 => .X | 4 => .Y | 5 => .Z | 6 => .I | _ => .J

/-- A register's index as three bits. -/
def Reg.toBits (r : Reg) : BitVec 3 := BitVec.ofNat 3 r.num.val

/-! ## Operand fields (R73) -/

/-- The operand form a 6-bit field selects: the table of R73, row by row. -/
def Operand.ofField (f : OpField) : Operand :=
  let n := f.toNat
  if n < 0x08 then .reg (Reg.ofBits (f.extractLsb' 0 3))
  else if n < 0x10 then .ind (Reg.ofBits (f.extractLsb' 0 3))
  else if n < 0x18 then .indNext (Reg.ofBits (f.extractLsb' 0 3))
  else if n = 0x18 then .pop
  else if n = 0x19 then .peek
  else if n = 0x1A then .push
  else if n = 0x1B then .sp
  else if n = 0x1C then .pc
  else if n = 0x1D then .o
  else if n = 0x1E then .memNext
  else if n = 0x1F then .litNext
  else .lit (f.extractLsb' 0 5)

/-- The field of an operand form: the same table, read from right to left. -/
def Operand.toField : Operand → OpField
  | .reg r => 0b000#3 ++ r.toBits
  | .ind r => 0b001#3 ++ r.toBits
  | .indNext r => 0b010#3 ++ r.toBits
  | .pop => 0x18#6
  | .peek => 0x19#6
  | .push => 0x1A#6
  | .sp => 0x1B#6
  | .pc => 0x1C#6
  | .o => 0x1D#6
  | .memNext => 0x1E#6
  | .litNext => 0x1F#6
  | .lit v => 0b1#1 ++ v

/-- Whether resolving the form consumes an extra word: `ext(f)` of R76 is 1 exactly for 0x10-0x17, 0x1E and 0x1F. -/
def Operand.hasExtra : Operand → Bool
  | .indNext _ | .memNext | .litNext => true
  | .reg _ | .ind _ | .pop | .peek | .push | .sp | .pc | .o | .lit _ => false

/-- `ext(f)` of R76 as a number. -/
def Operand.ext (p : Operand) : Nat := if p.hasExtra then 1 else 0

/-! ## The header word (R70, R83) -/

/-- Bits 3:0 of a header word. -/
def fieldOp (w : Word) : BitVec 4 := w.extractLsb' 0 4

/-- Bits 9:4 of a header word. -/
def fieldA (w : Word) : OpField := w.extractLsb' 4 6

/-- Bits 15:10 of a header word. -/
def fieldB (w : Word) : OpField := w.extractLsb' 10 6

/-- The header word with the given fields, most significant first `bbbbbbaaaaaaoooo` (R70):
`op | (a << 4) | (b << 10)` (R83). -/
def header (op : BitVec 4) (a b : OpField) : Word :=
  op.setWidth 16 ||| a.setWidth 16 <<< 4 ||| b.setWidth 16 <<< 10

/-- The non-basic forms, selected by the sub-opcode in the order of R195: JSR first, then `HALT_SUBOP`, then reserved. -/
def decodeNonBasic (c : Config) (subop : OpField) (b : Operand) : Instr :=
  if subop = 0x01#6 then .jsr b
  else if c.haltSubop = some subop then .halt subop b
  else .reserved subop b

/-- The instruction a header word stands for (R78, R79, R112). Total: no word is refused (R80). -/
def decode (c : Config) (w : Word) : Instr :=
  let a := Operand.ofField (fieldA w)
  let b := Operand.ofField (fieldB w)
  match (fieldOp w).toNat with
  | 0x0 => decodeNonBasic c (fieldA w) b
  | 0x1 => .set a b
  | 0x2 => .add a b
  | 0x3 => .sub a b
  | 0x4 => .mul a b
  | 0x5 => .div a b
  | 0x6 => .mod a b
  | 0x7 => .shl a b
  | 0x8 => .shr a b
  | 0x9 => .and a b
  | 0xA => .bor a b
  | 0xB => .xor a b
  | 0xC => .ife a b
  | 0xD => .ifn a b
  | 0xE => .ifg a b
  | _ => .ifb a b

/-- The header word of an instruction (R70, R72, R78, R79). Its operands' extra words follow it in memory (R75,
`Instr.words`). -/
def encode : Instr → Word
  | .set a b => header 0x1#4 a.toField b.toField
  | .add a b => header 0x2#4 a.toField b.toField
  | .sub a b => header 0x3#4 a.toField b.toField
  | .mul a b => header 0x4#4 a.toField b.toField
  | .div a b => header 0x5#4 a.toField b.toField
  | .mod a b => header 0x6#4 a.toField b.toField
  | .shl a b => header 0x7#4 a.toField b.toField
  | .shr a b => header 0x8#4 a.toField b.toField
  | .and a b => header 0x9#4 a.toField b.toField
  | .bor a b => header 0xA#4 a.toField b.toField
  | .xor a b => header 0xB#4 a.toField b.toField
  | .ife a b => header 0xC#4 a.toField b.toField
  | .ifn a b => header 0xD#4 a.toField b.toField
  | .ifg a b => header 0xE#4 a.toField b.toField
  | .ifb a b => header 0xF#4 a.toField b.toField
  | .jsr b => header 0x0#4 0x01#6 b.toField
  | .halt subop b => header 0x0#4 subop b.toField
  | .reserved subop b => header 0x0#4 subop b.toField

/-- How many extra words an instruction consumes, a function of its header word alone (R76). The sub-opcode of a non-basic
form counts as an operand field only under `NONBASIC_A_RESOLVED` (R128). -/
def Instr.extraWords (c : Config) : Instr → Nat
  | .set a b | .add a b | .sub a b | .mul a b | .div a b | .mod a b | .shl a b | .shr a b
  | .and a b | .bor a b | .xor a b | .ife a b | .ifn a b | .ifg a b | .ifb a b => a.ext + b.ext
  | .jsr b => b.ext
  | .halt subop b | .reserved subop b =>
    (if c.nonbasicAResolved then (Operand.ofField subop).ext else 0) + b.ext

/-- The length of an instruction in words: 1, 2 or 3 (R76). -/
def Instr.length (c : Config) (i : Instr) : Nat := 1 + i.extraWords c

/-- The words of an instruction in the order of memory: the header, then A's extra word, then B's (R75). -/
def Instr.words (i : Instr) (extraA extraB : Option Word) : List Word :=
  encode i :: (extraA.toList ++ extraB.toList)

/-- The instruction the decoder reads from an instruction whose bits are `w`, the first word in bits 15:0 and each later word
in the next 16 bits. Only the first word is a header (R70): extra words decode to nothing. The configuration is the default
one, since a table word comes with none (log entry 1). -/
def decodeTableWord (nbits w : Nat) : Option Instr :=
  some (decode Machine.defaultConfig (BitVec.ofNat 16 (w % 2 ^ nbits)))

end Sys2Proof
end

