-- ==== Sys2Proof/Machine/State.lean ====
section
/-! DEFINITION. The state of the engine as plain data (spec/10_state.md R20), the reasons a step could stop, and the state
right after reset (spec/70_reset_and_hazards.md R234). -/

namespace Sys2Proof.Machine

/-- The engine has no fault: "The engine has no trap, exception or fault mechanism" (R200), and no entry of
spec/93_implementation_defined.md is a `fault`. So there is no reason to name: nothing raises one, which is exact. -/
inductive Fault where
deriving DecidableEq, Repr

/-- Why a step has no meaning in the model. -/
inductive Refusal where
  /-- An instruction the model gives no meaning to; raised only by an arm of `exec`, and safe. No arm raises it: every
  instruction has its meaning. -/
  | notModelled (mnemonic : String)
deriving DecidableEq, Repr

/-- The three kinds of diagnostic (R201). -/
inductive DiagKind where
  /-- Reading an operand field that has no meaning. Every field has one, so no rule raises it (R81). -/
  | invalidValueField
  /-- A write to a literal-class location (R125). -/
  | writeToLiteral
  /-- A non-basic header whose sub-opcode is neither 0x01 nor `HALT_SUBOP` (R197). -/
  | invalidNonBasicSubOpcode
deriving DecidableEq, Repr

/-- A diagnostic record: the kind, the address of the step's header word, and that word (R203). -/
structure Diag where
  kind : DiagKind
  hdrAddr : Word
  word : Word
deriving DecidableEq, Repr

/-- Memory contents: host cells, strictly rising by address, none equal to what an unlisted address reads as
(`Memory.wf` in `Machine/Ops.lean`). The word at word address `a` is the two bytes at the cell addresses `2 * a` (bits 15:8)
and `2 * a + 1` (bits 7:0); which of the two comes first is not observable (R54; DESIGN CHOICE, log entry 3). -/
abbrev Memory := List Host.Cell

/-- The state of the engine (R20: "exactly this list"), and with it the machine's fixed parameters (R8). -/
structure State where
  /-- The general registers A, B, C, X, Y, Z, I, J by index (R22). -/
  x : Vector Word 8
  /-- The program counter (R25). -/
  pc : Word
  /-- The stack pointer (R28). -/
  sp : Word
  /-- The overflow register (R29). -/
  o : Word
  /-- The 65536 words of memory (R35). -/
  mem : Memory
  /-- The cycle counter, unbounded (R32). -/
  cycles : Nat
  /-- The halt flag (R33). -/
  halted : Bool
  /-- The diagnostic output, oldest record first (R34). -/
  diags : List Diag
  /-- MODEL'S OWN: the parameters of R8 this machine was built with. No instruction reads or writes them as data, and no
  step changes them (log entry 4). -/
  cfg : Config
deriving DecidableEq, Repr

/-- The machine right after reset, with no image loaded (R234): every register at the default of its parameter
(`Params.lean`, log entries 1 and 2), pc 0x0000 (R27), no memory cell listed, so that every word reads as the default
`RESET_MEM_FILL`, cycles 0, running, no diagnostic. A loaded image is `bootState` in `Machine/Boot.lean`. -/
def State.reset : State where
  x := defaultReset.gpr
  pc := 0x0000#16
  sp := defaultReset.sp
  o := defaultReset.o
  mem := []
  cycles := 0
  halted := false
  diags := []
  cfg := defaultConfig

end Sys2Proof.Machine
end

