-- ==== Sys2Proof/Machine/Ops.lean ====
section
/-! DEFINITION. The named operations over memory, registers, the cycle counter and the diagnostics that every meaning is made
of. The engine has no exception entry and no return from one (spec/60_exceptions.md R200, R207, R208): what an error does is
`State.raise`, which reports and lets the step go on (R14). -/

namespace Sys2Proof.Machine

/-! ## Memory (spec/20_memory.md) -/

/-- What a byte no cell lists reads as. A machine whose `RESET_MEM_FILL` is not zero lists its words from the start
(`bootState`); the zero here is the spec's default fill (R8, decision D5; log entry 2). -/
def unlistedByte : Byte := 0x00#8

/-- The number of byte cells: 65536 words of two bytes (R35, R50). -/
def memoryBytes : Nat := 131072

/-- One cell of the canonical form: inside the memory, and not equal to what an unlisted address reads as. -/
abbrev Memory.cellOk (c : Host.Cell) : Prop := c.1 < memoryBytes ∧ c.2 ≠ unlistedByte

/-- The canonical form of a memory: addresses strictly rising, every cell in range and needed. -/
abbrev Memory.wf (m : Memory) : Prop :=
  m.Pairwise (fun c d => c.1 < d.1) ∧ ∀ c ∈ m, Memory.cellOk c

/-- The byte at cell address `n`. -/
def Memory.readByte : Memory → Nat → Byte
  | [], _ => unlistedByte
  | (k, v) :: rest, n => if k = n then v else Memory.readByte rest n

/-- Put a cell before the first cell of a greater address. -/
def Memory.insertCell (n : Nat) (v : Byte) : Memory → Memory
  | [] => [(n, v)]
  | (k, u) :: rest => if n < k then (n, v) :: (k, u) :: rest else (k, u) :: Memory.insertCell n v rest

/-- Take every cell of address `n` out. -/
def Memory.eraseCell (m : Memory) (n : Nat) : Memory := m.filter (fun c => decide (c.1 ≠ n))

/-- Set the byte at cell address `n`: a byte that an unlisted address would read as takes the cell out. -/
def Memory.writeByte (m : Memory) (n : Nat) (v : Byte) : Memory :=
  if v = unlistedByte then m.eraseCell n else Memory.insertCell n v (m.eraseCell n)

/-- The cell address of bits 15:8 of the word at `a`. -/
def highCell (a : Word) : Nat := 2 * a.toNat

/-- The cell address of bits 7:0 of the word at `a`. -/
def lowCell (a : Word) : Nat := 2 * a.toNat + 1

/-- The word of two bytes, the first in bits 15:8. -/
def wordOfBytes (high low : Byte) : Word := BitVec.ofNat 16 (high.toNat * 256 + low.toNat)

/-- Bits 15:8 of a word. -/
def highByte (w : Word) : Byte := w.extractLsb' 8 8

/-- Bits 7:0 of a word. -/
def lowByte (w : Word) : Byte := w.extractLsb' 0 8

/-- `MemRead(a, 1)` (R13): the whole word at a word address. Every address is in range (R55), and a read has no side
effect (R56). -/
def Memory.readWord (m : Memory) (a : Word) : Word :=
  wordOfBytes (m.readByte (highCell a)) (m.readByte (lowCell a))

/-- `MemWrite(a, 1, v)` (R13): set that word, and only that word (R56). -/
def Memory.writeWord (m : Memory) (a v : Word) : Memory :=
  (m.writeByte (highCell a) (highByte v)).writeByte (lowCell a) (lowByte v)

/-! ## Registers, counter, flag and diagnostics -/

/-- `x[i]` (R12). No register is hardwired (R22). -/
def State.reg (s : State) (r : Reg) : Word := s.x[r.num]

/-- `x[i] <- v` (R12). -/
def State.setReg (s : State) (r : Reg) (v : Word) : State := { s with x := s.x.set r.num v }

/-- `PC <- v` (R12). -/
def State.setPc (s : State) (v : Word) : State := { s with pc := v }

/-- `SP <- v` (R12). -/
def State.setSp (s : State) (v : Word) : State := { s with sp := v }

/-- `O <- v` (R12). -/
def State.setO (s : State) (v : Word) : State := { s with o := v }

/-- `MemRead(a, 1)` in a state (R13). -/
def State.readMem (s : State) (a : Word) : Word := s.mem.readWord a

/-- `MemWrite(a, 1, v)` in a state (R13). -/
def State.writeMem (s : State) (a v : Word) : State := { s with mem := s.mem.writeWord a v }

/-- `cycles += n` (R12). The counter never wraps (R32). -/
def State.addCycles (s : State) (n : Nat) : State := { s with cycles := s.cycles + n }

/-- `halted <- true` (R196). -/
def State.halt (s : State) : State := { s with halted := true }

/-- `raise K(hdr_addr, w)` (R14, R203): append one record and do nothing else (R205). -/
def State.raise (s : State) (k : DiagKind) (hdrAddr w : Word) : State :=
  { s with diags := s.diags ++ [⟨k, hdrAddr, w⟩] }

/-- The spec's numeric code of a diagnostic kind (R201, decision D17). -/
def DiagKind.code : DiagKind → Nat
  | .invalidValueField => 0
  | .writeToLiteral => 1
  | .invalidNonBasicSubOpcode => 2

/-! ## The instruction stream (spec/40_engine.md R110, R119) -/

/-- `PC <- trunc16(PC + 1)` (R25). -/
def State.incPc (s : State) : State := s.setPc (s.pc + 1#16)

/-- `NextWord()` (R119): the word at the pc, and the state with the pc past it and the surcharge added. -/
def nextWord (s : State) : Word × State := (s.readMem s.pc, s.incPc.addCycles s.cfg.extraWordCycles)

/-- The fetch of a header word (R110): the word at the pc, and the state with the pc past it. It adds no cycles. -/
def fetchHeader (s : State) : Word × State := (s.readMem s.pc, s.incPc)

/-- `hdr_addr` of R110 for a meaning, which starts with the pc one word past the header (log entry 5). -/
def hdrAddrOf (s : State) : Word := s.pc - 1#16

/-! ## The stack (spec/10_state.md R28) -/

/-- `SP <- trunc16(SP + 1)`. -/
def State.incSp (s : State) : State := s.setSp (s.sp + 1#16)

/-- `SP <- trunc16(SP - 1)`. -/
def State.decSp (s : State) : State := s.setSp (s.sp - 1#16)

/-- `SP <- trunc16(SP - 1); MemWrite(SP, 1, v)`: the push of JSR (R190). -/
def State.pushWord (s : State) (v : Word) : State := s.decSp.writeMem s.decSp.sp v

end Sys2Proof.Machine
end

