-- ==== Sys2Proof/Machine/Operands.lean ====
section
/-! DEFINITION. Operand resolution and the reading and writing of a location (spec/40_engine.md R113-R128). -/

namespace Sys2Proof.Machine

/-- A resolved operand location (spec/00_scope.md R15). It lives inside one step only (R36). -/
inductive Loc where
  | reg (r : Reg)
  | mem (a : Word)
  | spReg
  | pcReg
  | oReg
  | lit (v : Word)
deriving DecidableEq, Repr

/-- Whether a location is of the literal class, which no write changes (R17, R125). -/
def Loc.isLit : Loc → Bool
  | .lit _ => true
  | .reg _ | .mem _ | .spReg | .pcReg | .oReg => false

/-- The address of a location in memory; none for every other location. -/
def Loc.address : Loc → Option Word
  | .mem a => some a
  | .reg _ | .spReg | .pcReg | .oReg | .lit _ => none

/-- `Resolve(f)` (R122): the location a form selects, and the state after its side effects, which happen here and once:
an extra word consumed, or SP moved (decision D8). -/
def resolve (p : Operand) (s : State) : Loc × State :=
  match p with
  | .reg r => (.reg r, s)
  | .ind r => (.mem (s.reg r), s)
  | .indNext r => (.mem (s.reg r + (nextWord s).1), (nextWord s).2)
  | .pop => (.mem s.sp, s.incSp)
  | .peek => (.mem s.sp, s)
  | .push => (.mem s.decSp.sp, s.decSp)
  | .sp => (.spReg, s)
  | .pc => (.pcReg, s)
  | .o => (.oReg, s)
  | .memNext => (.mem (nextWord s).1, (nextWord s).2)
  | .litNext => (.lit (nextWord s).1, (nextWord s).2)
  | .lit v => (.lit (v.setWidth 16), s)

/-- `Read(loc)` (R124). -/
def readLoc (l : Loc) (s : State) : Word :=
  match l with
  | .reg r => s.reg r
  | .mem a => s.readMem a
  | .spReg => s.sp
  | .pcReg => s.pc
  | .oReg => s.o
  | .lit v => v

/-- `Write(loc, v)` (R125) in the step whose header word `w` stands at `hdrAddr`: a write to a literal is a no-op that raises
`WriteToLiteral`. -/
def writeLoc (hdrAddr w : Word) (l : Loc) (v : Word) (s : State) : State :=
  match l with
  | .reg r => s.setReg r v
  | .mem a => s.writeMem a v
  | .spReg => s.setSp v
  | .pcReg => s.setPc v
  | .oReg => s.setO v
  | .lit _ => s.raise .writeToLiteral hdrAddr w

/-- What the skeleton of a basic step knows once both operands are resolved and read (R126). -/
structure Operands where
  /-- The location of operand A. -/
  la : Loc
  /-- The location of operand B. -/
  lb : Loc
  /-- The value of operand A. -/
  va : Word
  /-- The value of operand B. -/
  vb : Word
  /-- The state after both resolutions. -/
  after : State
deriving DecidableEq, Repr

/-- The first four lines of the basic skeleton (R126): resolve A, then B, then read both (R123, decisions D8 and D9). -/
def operands (a b : Operand) (s : State) : Operands :=
  let ra := resolve a s
  let rb := resolve b ra.2
  { la := ra.1, lb := rb.1, va := readLoc ra.1 rb.2, vb := readLoc rb.1 rb.2, after := rb.2 }

/-- The non-basic skeleton (R127): the value of operand B and the state after its resolution. Field A is the sub-opcode; only
under `NONBASIC_A_RESOLVED` is it resolved first, for its side effects alone (R128, decision D14). -/
def nonBasicOperand (subop : OpField) (b : Operand) (s : State) : Word × State :=
  let s₁ := if s.cfg.nonbasicAResolved then (resolve (Operand.ofField subop) s).2 else s
  let rb := resolve b s₁
  (readLoc rb.1 rb.2, rb.2)

end Sys2Proof.Machine
end

