-- ==== Sys2Proof/Machine/Alu.lean ====
section
/-! DEFINITION. The eleven instructions that write operand A (spec/41_alu.md R150-R166): one definition each, over the shared
skeleton of a basic step (spec/40_engine.md R126) and the shared write-back (R152).

A meaning starts in the state after the header fetch: the pc is one word past the header (R110). -/

namespace Sys2Proof.Machine

/-- `if onew != none: O <- onew` (R152). -/
def updateO (onew : Option Word) (s : State) : State :=
  match onew with
  | none => s
  | some v => s.setO v

/-- `AluWriteBack` (R152): the two orders differ only when the destination is O itself (decision D10). -/
def aluWriteBack (hdrAddr w : Word) (la : Loc) (out : AluOut) (s : State) : State :=
  match s.cfg.oWriteOrder with
  | .aLast => writeLoc hdrAddr w la out.res (updateO out.onew s)
  | .oLast => updateO out.onew (writeLoc hdrAddr w la out.res s)

/-- The basic step of an instruction that writes A (R126): header word `w`, base cost `base`, operation `alu`. -/
def aluStep (w : Word) (base : Nat) (alu : Word → Word → AluOut) (a b : Operand) (s : State) : State :=
  let r := operands a b s
  aluWriteBack (hdrAddrOf s) w r.la (alu r.va r.vb) (r.after.addCycles base)

/-- SET: copy B to A; O unchanged; 1 cycle (R153, R130). -/
def execSet (a b : Operand) (s : State) : Host.Outcome State Fault Refusal :=
  .next (aluStep (encode (.set a b)) 1 aluSet a b s)

/-- ADD: A + B, the carry to O; 2 cycles (R154, R130). -/
def execAdd (a b : Operand) (s : State) : Host.Outcome State Fault Refusal :=
  .next (aluStep (encode (.add a b)) 2 aluAdd a b s)

/-- SUB: A - B, the borrow to O; 2 cycles (R155, R130). -/
def execSub (a b : Operand) (s : State) : Host.Outcome State Fault Refusal :=
  .next (aluStep (encode (.sub a b)) 2 aluSub a b s)

/-- MUL: A * B, the high half to O; 3 cycles (R156, R130). -/
def execMul (a b : Operand) (s : State) : Host.Outcome State Fault Refusal :=
  .next (aluStep (encode (.mul a b)) 3 aluMul a b s)

/-- DIV: A / B, O by `DIV_O_RULE`; 3 cycles (R157, R130). -/
def execDiv (a b : Operand) (s : State) : Host.Outcome State Fault Refusal :=
  .next (aluStep (encode (.div a b)) 3 (aluDiv s.cfg.divORule) a b s)

/-- MOD: A mod B, O unchanged; 3 cycles (R158, R130). -/
def execMod (a b : Operand) (s : State) : Host.Outcome State Fault Refusal :=
  .next (aluStep (encode (.mod a b)) 3 aluMod a b s)

/-- SHL: A shifted left by B, the bits shifted out to O; 2 cycles (R159, R130). -/
def execShl (a b : Operand) (s : State) : Host.Outcome State Fault Refusal :=
  .next (aluStep (encode (.shl a b)) 2 (aluShl s.cfg.shiftRule) a b s)

/-- SHR: A shifted right by B, O by `SHR_O_RULE`; 2 cycles (R160, R130). -/
def execShr (a b : Operand) (s : State) : Host.Outcome State Fault Refusal :=
  .next (aluStep (encode (.shr a b)) 2 (aluShr s.cfg.shiftRule s.cfg.shrORule) a b s)

/-- AND: bitwise, O unchanged; 1 cycle (R161, R130). -/
def execAnd (a b : Operand) (s : State) : Host.Outcome State Fault Refusal :=
  .next (aluStep (encode (.and a b)) 1 aluAnd a b s)

/-- BOR: bitwise, O unchanged; 1 cycle (R162, R130). -/
def execBor (a b : Operand) (s : State) : Host.Outcome State Fault Refusal :=
  .next (aluStep (encode (.bor a b)) 1 aluBor a b s)

/-- XOR: bitwise, O unchanged; 1 cycle (R163, R130). -/
def execXor (a b : Operand) (s : State) : Host.Outcome State Fault Refusal :=
  .next (aluStep (encode (.xor a b)) 1 aluXor a b s)

end Sys2Proof.Machine
end

