-- ==== Sys2Proof/Machine/Conditional.lean ====
section
/-! DEFINITION. The four conditional instructions (spec/42_conditional.md R180-R187). Nothing is written to A and O is not
changed; a false condition skips exactly one word, whatever stands there (R180, R185). -/

namespace Sys2Proof.Machine

/-- `CondSkip` (R180): one more word past the instruction when the condition is false, at no cost (decision D22). -/
def condSkip (cond : Bool) (s : State) : State := if cond then s else s.incPc

/-- The basic step of a conditional (R126): both operands are resolved and read whatever the outcome (R187); the base cost of
all four is 2 (R130). -/
def condStep (cond : Word → Word → Bool) (a b : Operand) (s : State) : State :=
  let r := operands a b s
  condSkip (cond r.va r.vb) (r.after.addCycles 2)

/-- IFE: go on only if A equals B (R181). -/
def execIfe (a b : Operand) (s : State) : Host.Outcome State Fault Refusal := .next (condStep condIfe a b s)

/-- IFN: go on only if A differs from B (R182). -/
def execIfn (a b : Operand) (s : State) : Host.Outcome State Fault Refusal := .next (condStep condIfn a b s)

/-- IFG: go on only if A is greater than B, unsigned (R183). -/
def execIfg (a b : Operand) (s : State) : Host.Outcome State Fault Refusal := .next (condStep condIfg a b s)

/-- IFB: go on only if A and B share a set bit (R184). -/
def execIfb (a b : Operand) (s : State) : Host.Outcome State Fault Refusal := .next (condStep condIfb a b s)

end Sys2Proof.Machine
end

