-- ==== Sys2Proof/Machine/NonBasic.lean ====
section
/-! DEFINITION. The instructions of opcode 0 (spec/43_nonbasic.md R190-R197): JSR, HALT and the reserved sub-opcodes. All of
them resolve and read operand B first (R127, decision D15). -/

namespace Sys2Proof.Machine

/-- JSR: push the pc, which is already past B's extra word, then jump to the value of B, which was read before the push
(R190, R191). Its sub-opcode is 0x01, so resolving field A has no side effect even under `NONBASIC_A_RESOLVED` (R128). -/
def execJsr (b : Operand) (s : State) : Host.Outcome State Fault Refusal :=
  let r := nonBasicOperand 0x01#6 b s
  .next (((r.2.pushWord r.2.pc).setPc r.1).addCycles s.cfg.jsrCycles)

/-- HALT: set the halt flag; the value of B is ignored; no base cost (R196, decision D16). -/
def execHalt (subop : OpField) (b : Operand) (s : State) : Host.Outcome State Fault Refusal :=
  .next (nonBasicOperand subop b s).2.halt

/-- A reserved sub-opcode: a no-op after B's resolution that raises `InvalidNonBasicSubOpcode` once; no base cost
(R197, decision D16). -/
def execReserved (subop : OpField) (b : Operand) (s : State) : Host.Outcome State Fault Refusal :=
  .next ((nonBasicOperand subop b s).2.raise .invalidNonBasicSubOpcode (hdrAddrOf s) (encode (.reserved subop b)))

end Sys2Proof.Machine
end

