-- ==== Sys2Proof/Machine/Step.lean ====
section
/-! DEFINITION. One step of the engine (spec/40_engine.md R110-R112). -/

namespace Sys2Proof.Machine

/-- `step()`: nothing at all when halted (R111); otherwise fetch the header word at the pc (R110), decode it (R112) and run
the instruction in the state after the fetch. -/
def step (s : State) : Host.Outcome State Fault Refusal :=
  if s.halted then .next s
  else exec (decode s.cfg (fetchHeader s).1) (fetchHeader s).2

/-- `s` with the words of `w` (16 bits each, the first in bits 15:0, the bits above `nbits` zero) stored at the pc, up to the
longest instruction, three words (R76), and with the halt flag down, since a halted engine fetches nothing (R111). A program
otherwise comes to the machine through the load of its image before the first step (`bootState`, R231; log entry 6). -/
def State.withFetchWord (s : State) (nbits w : Nat) : State :=
  let v := w % 2 ^ nbits
  let s₀ := { s with halted := false }
  let s₁ := s₀.writeMem s.pc (BitVec.ofNat 16 v)
  let s₂ := s₁.writeMem (s.pc + 1#16) (BitVec.ofNat 16 (v / 2 ^ 16))
  s₂.writeMem (s.pc + 2#16) (BitVec.ofNat 16 (v / 2 ^ 32))

end Sys2Proof.Machine
end

