-- ==== Sys2Proof/Machine/Boot.lean ====
section
/-! DEFINITION. How a program comes to the machine: the ROM text format, the load of an image before the first step, and what
the outside can observe (spec/70_reset_and_hazards.md R230-R234, spec/10_state.md R37). No step uses any of this. -/

namespace Sys2Proof.Machine

/-- Why a run never starts (R202, R231, R233): fatal before the first step, and no fault of the engine. -/
inductive LoadError where
  /-- `RomFormatError` (R233). -/
  | romFormatError
  /-- `FileOpenError` (R233). -/
  | fileOpenError
  /-- An image of more than 65536 words (R231, decision D25). -/
  | imageTooLarge
deriving DecidableEq, Repr

/-! ## The image in memory (R231) -/

/-- The number of words of memory (R35). -/
def memoryWords : Nat := 65536

/-- The memory whose byte at each cell address is given by `f`, in canonical form. Irreducible, so that no unification runs
through its 131072 cells: its laws are in `Laws/Boot.lean`. -/
@[irreducible] def Memory.ofBytes (f : Nat → Byte) : Memory :=
  (List.range memoryBytes).filterMap fun n => if f n = unlistedByte then none else some (n, f n)

/-- The byte at cell address `n` of a memory whose words are `f`: bits 15:8 at even cells, bits 7:0 at odd ones. -/
def byteOfWords (f : Word → Word) (n : Nat) : Byte :=
  let w := f (BitVec.ofNat 16 (n / 2))
  if n % 2 = 0 then highByte w else lowByte w

/-- The memory whose word at each address is given by `f`. -/
def Memory.ofWords (f : Word → Word) : Memory := Memory.ofBytes (byteOfWords f)

/-- The word at `a` after the load: the image from address 0 in order, `RESET_MEM_FILL` past its end (R231). -/
def imageWord (fill : Word → Word) (image : List Word) (a : Word) : Word := (image[a.toNat]?).getD (fill a)

/-- `load(image)`: the state before the first step (R231, R234), or a refusal of an image that does not fit. -/
def bootState (c : Config) (p : ResetParams) (image : List Word) : Except LoadError State :=
  if image.length ≤ memoryWords then
    .ok
      { x := p.gpr
        pc := 0x0000#16
        sp := p.sp
        o := p.o
        mem := Memory.ofWords (imageWord p.memFill image)
        cycles := 0
        halted := false
        diags := []
        cfg := c }
  else .error .imageTooLarge

/-! ## The ROM text (R232, R233) -/

/-- The character the opening marker doubles. -/
def openBrace : Char := Char.ofNat 0x7B

/-- The character the closing marker doubles. -/
def closeBrace : Char := Char.ofNat 0x7D

/-- Where the first doubled `c` begins: the first-match scan of R232. -/
def findMarker (c : Char) : List Char → Option Nat
  | [] => none
  | x :: rest => if x = c ∧ rest.head? = some c then some 0 else (findMarker c rest).map (· + 1)

/-- The value of a hex digit `0-9A-Fa-f`; none for every other character. -/
def hexValue (ch : Char) : Option Nat :=
  let n := ch.toNat
  if 0x30 ≤ n ∧ n ≤ 0x39 then some (n - 0x30)
  else if 0x41 ≤ n ∧ n ≤ 0x46 then some (n - 0x41 + 10)
  else if 0x61 ≤ n ∧ n ≤ 0x66 then some (n - 0x61 + 10)
  else none

/-- Groups of four digits as big-endian words, the first digit in bits 15:12; none when the count is no multiple of 4. -/
def groupDigits : List Nat → Option (List Word)
  | [] => some []
  | d₃ :: d₂ :: d₁ :: d₀ :: rest =>
    (groupDigits rest).map (BitVec.ofNat 16 (d₃ * 0x1000 + d₂ * 0x100 + d₁ * 0x10 + d₀) :: ·)
  | _ => none

/-- The words of a ROM text: the hex digits between the first opening and the first closing marker, every other character
between them ignored (R232), or `RomFormatError` (R233). -/
def parseRom (text : List Char) : Except LoadError (List Word) :=
  match findMarker openBrace text, findMarker closeBrace text with
  | some i, some j =>
    if j < i then .error .romFormatError
    else
      match groupDigits (((text.drop (i + 2)).take (j - (i + 2))).filterMap hexValue) with
      | some ws => .ok ws
      | none => .error .romFormatError
  | _, _ => .error .romFormatError

/-- The start of a run: `file` is the ROM file's text, or none where it cannot be opened (R233). -/
def bootRom (c : Config) (p : ResetParams) (file : Option (List Char)) : Except LoadError State :=
  match file with
  | none => .error .fileOpenError
  | some text => (parseRom text).bind (bootState c p)

/-! ## Observation (R37) -/

/-- What `observe()` shows: the values of x, PC, SP, O, cycles and mem (R37). -/
structure Observation where
  x : Vector Word 8
  pc : Word
  sp : Word
  o : Word
  cycles : Nat
  mem : Memory
deriving DecidableEq, Repr

/-- `observe()`: reads and never writes (R38). The `halted` and `diags` outputs are the state's own fields. -/
def observe (s : State) : Observation := ⟨s.x, s.pc, s.sp, s.o, s.cycles, s.mem⟩

end Sys2Proof.Machine
end

