-- ==== Sys2Proof/Machine/Assembler.lean ====
section
/-! DEFINITION. The two-pass assembler of spec/30_encoding.md R84-R97, from source text to words and to ROM text.

It is surrounding software and no part of the engine (spec/00_scope.md R5): no step uses it. It is modelled because the spec
fixes the spelling of every encoding with it. What the spec leaves open of it is in log entry 8. -/

namespace Sys2Proof.Machine

/-- The assembler's error kinds (R94). -/
inductive AsmError where
  | invalidNumber
  | constantTooLarge
  | invalidRegisterName
  | expectedRegister
  | invalidLabelSyntax
  | emptyArgument
  | wrongArgumentCount
  | invalidOpcode
  | undefinedLabel
deriving DecidableEq, Repr

/-! ## Tokens (R86, R88, R89) -/

/-- The number the digits spell in a base of at most 16; none for an empty text or a character that is no digit of it. -/
def digitsValue (base : Nat) : List Char → Option Nat
  | [] => none
  | cs => cs.foldlM (fun acc ch => do
      let d ← hexValue ch
      if d < base then some (acc * base + d) else none) 0

/-- `parse_num` (R88): base 16 after a leading `0x`, else base 10; at most 0xFFFF. -/
def parseNum (token : List Char) : Except AsmError Word :=
  let value :=
    match token with
    | '0' :: 'x' :: rest => digitsValue 16 rest
    | _ => digitsValue 10 token
  match value with
  | none => .error .invalidNumber
  | some n => if n ≤ 0xFFFF then .ok (BitVec.ofNat 16 n) else .error .constantTooLarge

/-- The register a character names, if it names one (R89). -/
def regOfChar (ch : Char) : Option Reg :=
  if ch = 'A' then some .A else if ch = 'B' then some .B else if ch = 'C' then some .C
  else if ch = 'X' then some .X else if ch = 'Y' then some .Y else if ch = 'Z' then some .Z
  else if ch = 'I' then some .I else if ch = 'J' then some .J else none

/-- `parse_reg` (R89). -/
def parseReg (ch : Char) : Except AsmError Reg :=
  match regOfChar ch with
  | some r => .ok r
  | none => .error .invalidRegisterName

/-- The pieces of a text between the occurrences of a character; never an empty list. -/
def splitAtChar (sep : Char) : List Char → List (List Char)
  | [] => [[]]
  | ch :: rest =>
    match splitAtChar sep rest with
    | [] => [[ch]]
    | piece :: more => if ch = sep then [] :: piece :: more else (ch :: piece) :: more

/-- The whitespace-separated tokens of a line (R86). DESIGN CHOICE (log entry 8): whitespace is Lean's `Char.isWhitespace`, that
is space, tab, carriage return and newline; the spec does not name the characters. -/
def tokens (line : List Char) : List (List Char) :=
  (splitAtChar ' ' (line.map fun ch => if ch.isWhitespace then ' ' else ch)).filter (· ≠ [])

/-! ## Labels (R85) -/

/-- A letter `A-Z` or `a-z` (log entry 8). -/
def isLetter (ch : Char) : Bool :=
  decide (0x41 ≤ ch.toNat ∧ ch.toNat ≤ 0x5A ∨ 0x61 ≤ ch.toNat ∧ ch.toNat ≤ 0x7A)

/-- A digit `0-9`. -/
def isDigit (ch : Char) : Bool := decide (0x30 ≤ ch.toNat ∧ ch.toNat ≤ 0x39)

/-- A label name: not empty, no digit first, only letters, digits and `_ - $` (R85). -/
def labelOk (name : List Char) : Bool :=
  match name with
  | [] => false
  | ch :: _ => !isDigit ch && name.all fun d => isLetter d || isDigit d || d = '_' || d = '-' || d = '$'

/-! ## Operands (R90) -/

/-- An operand before labels are resolved: its field with its extra word, or a label reference, which always becomes field
0x1F with an extra word (R91). -/
inductive AsmOperand where
  | code (p : Operand) (extra : Option Word)
  | label (name : List Char)
deriving DecidableEq, Repr

/-- The words an operand adds to its instruction (R92). -/
def AsmOperand.size : AsmOperand → Nat
  | .code _ none => 0
  | .code _ (some _) | .label _ => 1

/-- The keywords of classifier rule 1 (R90). -/
def keyword (token : List Char) : Option Operand :=
  if token = ['P', 'O', 'P'] then some .pop
  else if token = ['P', 'E', 'E', 'K'] then some .peek
  else if token = ['P', 'U', 'S', 'H'] then some .push
  else if token = ['S', 'P'] then some .sp
  else if token = ['P', 'C'] then some .pc
  else if token = ['O'] then some .o
  else none

/-- The register a one-character token names. -/
def tokenReg (token : List Char) : Option Reg :=
  match token with
  | [ch] => regOfChar ch
  | _ => none

/-- The register of a token of the form `[R]`: classifier rule 3 (R90). -/
def bracketReg (token : List Char) : Option Reg :=
  match token with
  | ['[', ch, ']'] => regOfChar ch
  | _ => none

/-- A token without its brackets. DESIGN CHOICE (log entry 8): every `[` and `]` of the token goes, wherever it stands and
whether or not it is matched; the spec says only to remove the brackets. -/
def unbracket (token : List Char) : List Char := token.filter fun ch => ch ≠ '[' ∧ ch ≠ ']'

/-- A register and a numeral, in that order. -/
def regPlusNum (p q : List Char) : Option AsmOperand :=
  match tokenReg p, parseNum q with
  | some r, .ok n => some (.code (.indNext r) (some n))
  | _, _ => none

/-- Classifier rule 4 (R90): exactly two parts around `+`, a register and a numeral in either order; else
`ExpectedRegister`, also for a non-numeral in the numeral part (R97). -/
def plusOperand (token : List Char) : Except AsmError AsmOperand :=
  match splitAtChar '+' (unbracket token) with
  | [p, q] =>
    match regPlusNum p q, regPlusNum q p with
    | some v, _ => .ok v
    | none, some v => .ok v
    | none, none => .error .expectedRegister
  | _ => .error .expectedRegister

/-- Classifier rule 6 (R90): a numeral, embedded up to 0x1F, or a label reference. A numeral above 0xFFFF is
`ConstantTooLarge` (R97). -/
def numberOrLabel (token : List Char) : Except AsmError AsmOperand :=
  match parseNum token with
  | .ok n =>
    if n.toNat ≤ 0x1F then .ok (.code (.lit (n.extractLsb' 0 5)) none) else .ok (.code .litNext (some n))
  | .error .constantTooLarge => .error .constantTooLarge
  | .error _ => if labelOk token then .ok (.label token) else .error .invalidLabelSyntax

/-- `make_val` (R90): the first classifier rule that matches wins. -/
def makeVal (token : List Char) : Except AsmError AsmOperand :=
  match keyword token, tokenReg token, bracketReg token with
  | some p, _, _ => .ok (.code p none)
  | none, some r, _ => .ok (.code (.reg r) none)
  | none, none, some r => .ok (.code (.ind r) none)
  | none, none, none =>
    if token.contains '+' then plusOperand token
    else if token.contains '[' then (parseNum (unbracket token)).map fun n => .code .memNext (some n)
    else numberOrLabel token

/-! ## Lines (R84-R87) -/

/-- An instruction before labels are resolved. JSR has no operand A: its field A is the sub-opcode 1 (R87). -/
structure AsmInstr where
  op : BitVec 4
  a : Option AsmOperand
  b : AsmOperand
deriving DecidableEq, Repr

/-- The instruction's size in words (R92). -/
def AsmInstr.size (i : AsmInstr) : Nat := 1 + (i.a.map AsmOperand.size).getD 0 + i.b.size

/-- The opcode of a two-argument mnemonic (R78, R87). -/
def basicOpcode (mnemonic : List Char) : Option (BitVec 4) :=
  if mnemonic = ['S', 'E', 'T'] then some 0x1 else if mnemonic = ['A', 'D', 'D'] then some 0x2
  else if mnemonic = ['S', 'U', 'B'] then some 0x3 else if mnemonic = ['M', 'U', 'L'] then some 0x4
  else if mnemonic = ['D', 'I', 'V'] then some 0x5 else if mnemonic = ['M', 'O', 'D'] then some 0x6
  else if mnemonic = ['S', 'H', 'L'] then some 0x7 else if mnemonic = ['S', 'H', 'R'] then some 0x8
  else if mnemonic = ['A', 'N', 'D'] then some 0x9 else if mnemonic = ['B', 'O', 'R'] then some 0xA
  else if mnemonic = ['X', 'O', 'R'] then some 0xB else if mnemonic = ['I', 'F', 'E'] then some 0xC
  else if mnemonic = ['I', 'F', 'N'] then some 0xD else if mnemonic = ['I', 'F', 'G'] then some 0xE
  else if mnemonic = ['I', 'F', 'B'] then some 0xF else none

/-- An instruction from its mnemonic and its argument tokens (R87). DESIGN CHOICE (log entry 8): of several errors in one
instruction `EmptyArgument` comes first, then `InvalidOpcode` or `WrongArgumentCount`, then an operand's error, A's before B's;
the spec leaves this order open (NS-21). -/
def parseInstr (mnemonic : List Char) (args : List (List Char)) : Except AsmError AsmInstr :=
  if [] ∈ args then .error .emptyArgument
  else
    match basicOpcode mnemonic with
    | some op =>
      match args with
      | [p, q] => do
        let a ← makeVal p
        let b ← makeVal q
        return ⟨op, some a, b⟩
      | _ => .error .wrongArgumentCount
    | none =>
      if mnemonic = ['J', 'S', 'R'] then
        match args with
        | [p] => do
          let b ← makeVal p
          return ⟨0x0, none, b⟩
        | _ => .error .wrongArgumentCount
      else .error .invalidOpcode

/-- A source line: the label it defines and the instruction it holds, either of which may be missing (R85). -/
structure AsmLine where
  label : Option (List Char)
  instr : Option AsmInstr
deriving DecidableEq, Repr

/-- The instruction of a line's text past its label, if it holds one (R84, R86). -/
def parseBody (body : List Char) : Except AsmError (Option AsmInstr) :=
  match tokens body with
  | [] => .ok none
  | mnemonic :: rest => (parseInstr mnemonic (splitAtChar ',' rest.flatten)).map some

/-- One line (R84, R85): the comment goes, then leading whitespace, then the label up to the first `:`. -/
def parseLine (line : List Char) : Except AsmError AsmLine :=
  let text := (line.takeWhile (· ≠ ';')).dropWhile Char.isWhitespace
  if text.contains ':' then
    let name := text.takeWhile (· ≠ ':')
    if labelOk name then
      (parseBody ((text.dropWhile (· ≠ ':')).drop 1)).map fun i => ⟨some name, i⟩
    else .error .invalidLabelSyntax
  else (parseBody text).map fun i => ⟨none, i⟩

/-! ## The two passes (R91-R94) -/

/-- What pass 1 has gathered: the word offset reached, the labels with the latest first, and the instructions, each with its
line number. -/
structure PassOne where
  offset : Nat
  labels : List (List Char × Nat)
  instrs : List (Nat × AsmInstr)
deriving DecidableEq, Repr

/-- Pass 1 over the lines from number `n` on; an error names its line (R94). -/
def passOne (n : Nat) (acc : PassOne) : List (List Char) → Except (Nat × AsmError) PassOne
  | [] => .ok acc
  | line :: rest =>
    match parseLine line with
    | .error e => .error (n, e)
    | .ok l =>
      let labels :=
        match l.label with
        | some name => (name, acc.offset) :: acc.labels
        | none => acc.labels
      match l.instr with
      | some i => passOne (n + 1) ⟨acc.offset + i.size, labels, acc.instrs ++ [(n, i)]⟩ rest
      | none => passOne (n + 1) ⟨acc.offset, labels, acc.instrs⟩ rest

/-- The offset of a label: the latest definition of the name wins (R85). -/
def labelOffset (labels : List (List Char × Nat)) (name : List Char) : Option Nat :=
  (labels.find? (fun l => decide (l.1 = name))).map Prod.snd

/-- An operand's field and extra word, its label replaced by field 0x1F and the label's offset (R91). -/
def AsmOperand.resolved (labels : List (List Char × Nat)) : AsmOperand → Except AsmError (Operand × Option Word)
  | .code p extra => .ok (p, extra)
  | .label name =>
    match labelOffset labels name with
    | some k => .ok (.litNext, some (BitVec.ofNat 16 k))
    | none => .error .undefinedLabel

/-- The words of one instruction: the header, then A's extra word, then B's (R93). -/
def AsmInstr.emit (labels : List (List Char × Nat)) (i : AsmInstr) : Except AsmError (List Word) := do
  let b ← i.b.resolved labels
  match i.a with
  | some p => do
    let a ← p.resolved labels
    return header i.op a.1.toField b.1.toField :: (a.2.toList ++ b.2.toList)
  | none => return header i.op 0x01#6 b.1.toField :: b.2.toList

/-- Pass 2: the words of every instruction in order; the first error aborts with its line number (R94). -/
def passTwo (labels : List (List Char × Nat)) : List (Nat × AsmInstr) → Except (Nat × AsmError) (List Word)
  | [] => .ok []
  | (n, i) :: rest =>
    match i.emit labels with
    | .error e => .error (n, e)
    | .ok ws => (passTwo labels rest).map (ws ++ ·)

/-- The assembler: the words of a source text, or the first error with its 1-based line number (R94). -/
def assemble (source : List Char) : Except (Nat × AsmError) (List Word) :=
  (passOne 1 ⟨0, [], []⟩ (splitAtChar '\n' source)).bind fun p => passTwo p.labels p.instrs

/-! ## The output (R93) -/

/-- The hex digit of a value below 16, in lower case (log entry 8). -/
def hexDigit (n : Nat) : Char := if n < 10 then Char.ofNat (0x30 + n) else Char.ofNat (0x61 + (n - 10))

/-- A word as four hex digits, bits 15:12 first. -/
def renderHex (w : Word) : List Char :=
  [hexDigit (w.toNat / 0x1000 % 16), hexDigit (w.toNat / 0x100 % 16), hexDigit (w.toNat / 0x10 % 16),
    hexDigit (w.toNat % 16)]

/-- The ROM text of a word stream: the markers around one word a line (R93). -/
def renderRom (ws : List Word) : List Char :=
  [openBrace, openBrace, '\n'] ++ ws.flatMap (fun w => renderHex w ++ ['\n']) ++ [closeBrace, closeBrace, '\n']

end Sys2Proof.Machine
end

