-- ==== Sys2Proof/Safety.lean ====
section
/-! DEFINITION. What counts as a good state and a clean run, in the terms claims use. The engine cannot stop with an error
(spec/60_exceptions.md R200), so safety here is that its data stays legal and that its diagnostics stay empty. -/

namespace Sys2Proof.Machine

/-- The legal states: the memory in canonical form and the configuration one the spec allows (R9). Every register value is
legal (R31), and so is every pc (R53). -/
abbrev State.Inv (s : State) : Prop := s.mem.wf ∧ s.cfg.wf

/-- A run that has reported no error so far (R34). -/
abbrev State.clean (s : State) : Prop := s.diags = []

/-- The word `step` would fetch as a header. -/
def State.headerWord (s : State) : Word := s.readMem s.pc

/-- The instruction `step` would run. -/
def State.current (s : State) : Instr := decode s.cfg s.headerWord

/-- How far resolving a form moves SP, modulo 2^16: POP up by one, PUSH down by one, no other form at all (R115-R118). -/
def spDelta : Operand → Word
  | .pop => 1#16
  | .push => 0xFFFF#16
  | .reg _ | .ind _ | .indNext _ | .peek | .sp | .pc | .o | .memNext | .litNext | .lit _ => 0#16

/-- How far resolving field A of a non-basic header moves SP: not at all unless `NONBASIC_A_RESOLVED` (R127, R128). -/
def subopSpDelta (c : Config) (subop : OpField) : Word :=
  if c.nonbasicAResolved then spDelta (Operand.ofField subop) else 0#16

/-- The location an instruction writes as its destination, in the state a meaning starts from: operand A of an instruction
that writes A (R71), and none of any other. -/
def destination (i : Instr) (s : State) : Option Loc :=
  match i with
  | .set a b | .add a b | .sub a b | .mul a b | .div a b | .mod a b | .shl a b | .shr a b
  | .and a b | .bor a b | .xor a b => some (operands a b s).la
  | .ife _ _ | .ifn _ _ | .ifg _ _ | .ifb _ _ | .jsr _ | .halt _ _ | .reserved _ _ => none

/-- The word address an instruction stores to, in the state a meaning starts from: its destination's, or the stack slot of a
JSR's push (R51). -/
def storeAddress (i : Instr) (s : State) : Option Word :=
  match i with
  | .jsr b => some ((resolve b s).2.sp - 1#16)
  | .set _ _ | .add _ _ | .sub _ _ | .mul _ _ | .div _ _ | .mod _ _ | .shl _ _ | .shr _ _
  | .and _ _ | .bor _ _ | .xor _ _ | .ife _ _ | .ifn _ _ | .ifg _ _ | .ifb _ _
  | .halt _ _ | .reserved _ _ => (destination i s).bind Loc.address

/-- Cell `n` is a byte of the word at the address `a?` stores to, if it stores to one. -/
def InStoredWord (a? : Option Word) (n : Nat) : Prop := ∃ a, a? = some a ∧ (n = highCell a ∨ n = lowCell a)

end Sys2Proof.Machine
end

