-- ==== Sys2Proof/Certificates/Slice0/Obligations.lean ====
section
/-! DEFINITION. The statements about the engine. Each docstring names the rule of spec/ it formalises; "decision D<n>" is a
choice of the spec's own (spec/92_eei_decisions.md), and "log entry" one of the model's.

A meaning starts one word past the header (R110), so in a statement about `exec` the header address is `s.pc - 1`. Every
statement holds for every configuration (R8), since it holds for every state. -/

open Sys2Proof Sys2Proof.Machine

namespace Sys2Proof.Machine

/-- What R152 leaves of a result `v` and a new O `ov` in the state `t` after a step from `s` whose destination is `l` and whose
header word is `w`: the result is in the destination and O is updated; a literal takes nothing and is reported; O itself as
the destination keeps the result or the new O by `O_WRITE_ORDER` (decisions D10 and D15). -/
def WrittenBack (l : Loc) (v : Word) (ov : Option Word) (w : Word) (s t : State) : Prop :=
  match l with
  | .lit _ => t.o = ov.getD s.o ∧ t.diags = s.diags ++ [⟨.writeToLiteral, s.pc - 1#16, w⟩]
  | .oReg =>
    t.o = (match s.cfg.oWriteOrder with | .aLast => v | .oLast => ov.getD v) ∧ t.diags = s.diags
  | .reg _ | .mem _ | .spReg | .pcReg => readLoc l t = v ∧ t.o = ov.getD s.o ∧ t.diags = s.diags

/-- An instruction of opcode `op` that writes A: for all operands in all states it is encoded with that opcode, completes,
writes back the result `res` and the new O `onew` of the two values read, and costs `base` and the surcharges (R130). -/
def AluEffect (op : BitVec 4) (mk : Operand → Operand → Instr) (base : Nat)
    (res : Config → Word → Word → Word) (onew : Config → Word → Word → Option Word) : Prop :=
  ∀ (a b : Operand) (s : State),
    (∀ c, decode c (header op a.toField b.toField) = mk a b) ∧
    ∃ t, exec (mk a b) s = .next t ∧
      WrittenBack (operands a b s).la (res s.cfg (operands a b s).va (operands a b s).vb)
        (onew s.cfg (operands a b s).va (operands a b s).vb) (header op a.toField b.toField) s t ∧
      t.cycles = s.cycles + base + s.cfg.extraWordCycles * (a.ext + b.ext)

/-- A conditional of opcode `op`: it is encoded with that opcode, completes, skips one word when `holds` is false of the two
values read, and changes nothing but the pc, SP by its stack operands, and the cycle counter (R180). -/
def CondEffect (op : BitVec 4) (mk : Operand → Operand → Instr) (holds : Word → Word → Prop) : Prop :=
  ∀ (a b : Operand) (s : State),
    (∀ c, decode c (header op a.toField b.toField) = mk a b) ∧
    ∃ t, exec (mk a b) s = .next t ∧
      t = { s with
        pc := t.pc
        sp := s.sp + spDelta a + spDelta b
        cycles := s.cycles + 2 + s.cfg.extraWordCycles * (a.ext + b.ext) } ∧
      (holds (operands a b s).va (operands a b s).vb → t.pc = s.pc + BitVec.ofNat 16 (a.ext + b.ext)) ∧
      (¬ holds (operands a b s).va (operands a b s).vb → t.pc = s.pc + BitVec.ofNat 16 (a.ext + b.ext) + 1#16)

/-- The shift count of R159 and R160 as a number. -/
def countOf (c : Config) (vb : Word) : Nat :=
  match c.shiftRule with
  | .exact => vb.toNat
  | .mod32 => vb.toNat % 32

/-- The basic opcodes that write A (R71, R78). -/
def writesA (w : Word) : Prop := 0x1 ≤ (fieldOp w).toNat ∧ (fieldOp w).toNat ≤ 0xB

/-- The eleven instructions that write A, on operands `a` and `b`. -/
def aluInstrs (a b : Operand) : List Instr :=
  [.set a b, .add a b, .sub a b, .mul a b, .div a b, .mod a b, .shl a b, .shr a b, .and a b, .bor a b, .xor a b]

/-- The register characters of R89 in index order. -/
def regChars : List (Char × Reg) :=
  [('A', .A), ('B', .B), ('C', .C), ('X', .X), ('Y', .Y), ('Z', .Z), ('I', .I), ('J', .J)]

end Sys2Proof.Machine

/-! ## Encoding -/

/-- R70, R83: decoding the header word of any well-formed instruction, with any operands, under any configuration, gives the
instruction back. -/
def Obligations.DecodingTheEncodingGivesTheInstructionBack : Prop :=
  ∀ (c : Config) (i : Instr), i.wf c = true → decode c (encode i) = i

/-- R80: every word is the encoding of a well-formed instruction, the one it decodes to, so that no word is refused and none
has two readings. The spec's own choices in it: decisions D1, D15 (log entries 1, 17). -/
def Obligations.EveryWordEncodesAWellFormedInstruction : Prop :=
  ∀ (c : Config) (w : Word), encode (decode c w) = w ∧ (decode c w).wf c = true

/-- R70: the places of the three fields in a header word, and that opcode 0 is the non-basic format, whose field A is the
sub-opcode. -/
def Obligations.HeaderFieldsStandWhereTheSpecPutsThem : Prop :=
  (∀ (op : BitVec 4) (a b : OpField), (header op a b).toNat = op.toNat + a.toNat * 16 + b.toNat * 1024) ∧
  ∀ (c : Config) (w : Word),
    (fieldOp w).toNat = w.toNat % 16 ∧ (fieldA w).toNat = w.toNat / 16 % 64 ∧ (fieldB w).toNat = w.toNat / 1024 ∧
    (fieldOp w = 0x0#4 ↔
      (∃ b, decode c w = .jsr b ∧ fieldA w = 0x01#6) ∨ (∃ b, decode c w = .halt (fieldA w) b) ∨
      (∃ b, decode c w = .reserved (fieldA w) b))

/-- R73: the form each of the 64 field values selects. -/
def Obligations.OperandFieldTable : Prop :=
  (∀ r : Reg, Operand.ofField (BitVec.ofNat 6 r.num) = .reg r ∧
    Operand.ofField (BitVec.ofNat 6 (0x08 + r.num)) = .ind r ∧
    Operand.ofField (BitVec.ofNat 6 (0x10 + r.num)) = .indNext r) ∧
  Operand.ofField 0x18#6 = .pop ∧ Operand.ofField 0x19#6 = .peek ∧ Operand.ofField 0x1A#6 = .push ∧
  Operand.ofField 0x1B#6 = .sp ∧ Operand.ofField 0x1C#6 = .pc ∧ Operand.ofField 0x1D#6 = .o ∧
  Operand.ofField 0x1E#6 = .memNext ∧ Operand.ofField 0x1F#6 = .litNext ∧
  ∀ v : BitVec 5, Operand.ofField (BitVec.ofNat 6 (0x20 + v.toNat)) = .lit v

/-- The worked encodings of R83, the source's own words among them (§8), and the all-zero word of R197. The spec's own
choices in it: decisions D27, D28, conflict C3 and general knowledge G2, G3 (log entries 26, 28). -/
def Obligations.WorkedEncodingsDecode : Prop :=
  ∀ c : Config,
    decode c 0x7C01#16 = .set (.reg .A) .litNext ∧ decode c 0x0402#16 = .add (.reg .A) (.reg .B) ∧
    decode c 0x040C#16 = .ife (.reg .A) (.reg .B) ∧ decode c 0x8401#16 = .set (.reg .A) (.lit 1#5) ∧
    decode c 0x7DC1#16 = .set .pc .litNext ∧ decode c 0x7C10#16 = .jsr .litNext ∧
    decode c 0x8C10#16 = .jsr (.lit 3#5) ∧ decode c 0x61C1#16 = .set .pc .pop ∧
    (c.haltSubop ≠ some 0x00#6 → decode c 0x0000#16 = .reserved 0x00#6 (.reg .A))

/-! ## The step -/

/-- R110, R112: a running engine runs the instruction that the word at the pc decodes to, with the pc one word further on and
nothing else changed before it. The spec's own choice in it: decision D7 (log entry 10). -/
def Obligations.StepRunsTheDecodedInstruction : Prop :=
  ∀ (s : State) (i : Instr), s.halted = false → i.wf s.cfg = true → s.readMem s.pc = encode i →
    step s = exec i { s with pc := s.pc + 1#16 }

/-- R111: a halted engine changes nothing. The spec's own choice in it: decision D19 (log entry 21). -/
def Obligations.HaltedStepChangesNothing : Prop := ∀ s : State, s.halted = true → step s = .next s

/-- R200: no instruction and no operand can stop a step, in any state and under any configuration. The spec's own choices in
it: decisions D7, D19 (log entries 10, 21). -/
def Obligations.EveryStepCompletes : Prop := ∀ s : State, ∃ t, step s = .next t

/-- Every step keeps the memory canonical and the configuration legal (model's own invariant, log entries 3 and 4; R9). -/
def Obligations.EveryStepKeepsTheInvariant : Prop := ∀ s t : State, s.Inv → step s = .next t → t.Inv

/-- No step changes the parameters the machine was built with (R8; log entry 4). -/
def Obligations.NoStepChangesTheConfiguration : Prop := ∀ s t : State, step s = .next t → t.cfg = s.cfg

/-- R33, R196: a running engine halts in exactly the steps that run a header of opcode 0 whose sub-opcode is `HALT_SUBOP`.
The spec's own choices in it: decision D1 and conflict C5 (log entries 1, 29). -/
def Obligations.OnlyTheHaltSubOpcodeHalts : Prop :=
  ∀ s t : State, s.halted = false → step s = .next t →
    (t.halted = true ↔ fieldOp s.headerWord = 0x0#4 ∧ fieldA s.headerWord ≠ 0x01#6 ∧
      s.cfg.haltSubop = some (fieldA s.headerWord))

/-- R130, R131: what a step adds to the cycle counter, with the base costs of R78 by opcode. The spec's own choices in it:
decisions D2, D3, D14, D15, D16, D22, D28 and conflicts C1, C4 (log entries 13, 17, 18, 26). -/
def Obligations.StepCostIsBaseAndSurcharges : Prop :=
  ∀ s t : State, s.halted = false → step s = .next t →
    t.cycles = s.cycles +
      (if fieldOp s.headerWord = 0x0#4 then (if fieldA s.headerWord = 0x01#6 then s.cfg.jsrCycles else 0)
       else [0, 1, 2, 2, 3, 3, 3, 2, 2, 1, 1, 1, 2, 2, 2, 2].getD (fieldOp s.headerWord).toNat 0) +
      s.cfg.extraWordCycles * s.current.extraWords s.cfg

/-- R201, R203, R204: which diagnostic a step appends, at most one, with the address and the word of its header. The spec's
own choices in it: decisions D1, D15, D17, D28 and conflict C5 (log entries 1, 17, 19, 26, 29). -/
def Obligations.StepReportsAtMostItsOwnDefect : Prop :=
  ∀ s t : State, s.halted = false → step s = .next t →
    (writesA s.headerWord → 0x1F ≤ (fieldA s.headerWord).toNat →
      t.diags = s.diags ++ [⟨.writeToLiteral, s.pc, s.headerWord⟩]) ∧
    (fieldOp s.headerWord = 0x0#4 → fieldA s.headerWord ≠ 0x01#6 → s.cfg.haltSubop ≠ some (fieldA s.headerWord) →
      t.diags = s.diags ++ [⟨.invalidNonBasicSubOpcode, s.pc, s.headerWord⟩]) ∧
    (¬ (writesA s.headerWord ∧ 0x1F ≤ (fieldA s.headerWord).toNat) →
      ¬ (fieldOp s.headerWord = 0x0#4 ∧ fieldA s.headerWord ≠ 0x01#6 ∧
        s.cfg.haltSubop ≠ some (fieldA s.headerWord)) →
      t.diags = s.diags)

/-- R25, R76, R180: where the pc stands after a step that neither writes PC as its destination nor is a JSR: past the
instruction, or one word further after a conditional. The spec's own choices in it: decisions D7, D14, D15, D28 and conflict
C4 (log entries 10, 13, 17, 26). -/
def Obligations.StepMovesPastTheInstruction : Prop :=
  ∀ s t : State, s.halted = false → step s = .next t →
    (0x1 ≤ (fieldOp s.headerWord).toNat → (fieldOp s.headerWord).toNat ≤ 0xB → fieldA s.headerWord ≠ 0x1C#6 →
      t.pc = s.pc + BitVec.ofNat 16 (s.current.length s.cfg)) ∧
    (0xC ≤ (fieldOp s.headerWord).toNat →
      t.pc = s.pc + BitVec.ofNat 16 (s.current.length s.cfg) ∨
      t.pc = s.pc + BitVec.ofNat 16 (s.current.length s.cfg + 1)) ∧
    (fieldOp s.headerWord = 0x0#4 → fieldA s.headerWord ≠ 0x01#6 →
      t.pc = s.pc + BitVec.ofNat 16 (s.current.length s.cfg))

/-- R129: no step changes a general register unless its instruction writes A and field A is that register. The spec's own
choice in it: decision D28 (log entry 26). -/
def Obligations.OnlyItsOwnFieldChangesAGeneralRegister : Prop :=
  ∀ (s t : State) (q : Reg), step s = .next t → t.reg q ≠ s.reg q →
    writesA s.headerWord ∧ fieldA s.headerWord = BitVec.ofNat 6 q.num

/-- R29: O changes only in a step of ADD, SUB, MUL, DIV, SHL or SHR, or of an instruction whose destination is O. The spec's
own choices in it: decision D28 and conflict C2 (log entries 26, 27). -/
def Obligations.OnlyOWritersChangeO : Prop :=
  ∀ s t : State, step s = .next t → t.o ≠ s.o →
    (fieldOp s.headerWord).toNat ∈ [0x2, 0x3, 0x4, 0x5, 0x7, 0x8] ∨
    (writesA s.headerWord ∧ fieldA s.headerWord = 0x1D#6)

/-- R51, R56: every instruction, of all eighteen, leaves every byte of memory outside the word it stores to as it was; one
that stores nothing leaves all of memory. The address is the destination's once both operands are resolved, or JSR's slot.
The spec's own choices in it: decisions D7, D8, D15 (log entries 10, 11, 17). -/
def Obligations.InstructionsStoreOnlyAtTheirAddress : Prop :=
  ∀ (i : Instr) (s t : State) (n : Nat), exec i s = .next t → ¬ InStoredWord (storeAddress i s) n →
    t.mem.readByte n = s.mem.readByte n

/-- R32, R34, R241: no instruction reads the cycle counter or the diagnostics. Two states that differ only in them take steps
to states that differ only in them, with the same cycles added and the same records appended. The spec's own choices in it:
decisions D17, D18 (log entries 19, 20). -/
def Obligations.CyclesAndDiagnosticsAreNeverRead : Prop :=
  ∀ (s t : State) (n : Nat) (d : List Diag), step s = .next t →
    ∃ (k : Nat) (e : List Diag), t.cycles = s.cycles + k ∧ t.diags = s.diags ++ e ∧
      step { s with cycles := n, diags := d } = .next { t with cycles := n + k, diags := d ++ e }

/-- R180, R185, R237: in the step after a false conditional the engine fetches the word one past the word that follows the
conditional's own last word, whatever instruction begins at the skipped word. The spec's own choices in it: decisions D7, D8,
D9, D23 and general knowledge G16, G17, G18 (log entries 10, 11, 12, 24, 30). -/
def Obligations.FalseConditionSkipsExactlyOneWord : Prop :=
  ∀ (s : State) (a b : Operand), s.halted = false →
    (s.current = .ife a b ∧ (operands a b s.incPc).va ≠ (operands a b s.incPc).vb ∨
      s.current = .ifn a b ∧ (operands a b s.incPc).va = (operands a b s.incPc).vb ∨
      s.current = .ifg a b ∧ (operands a b s.incPc).va.toNat ≤ (operands a b s.incPc).vb.toNat ∨
      s.current = .ifb a b ∧ (operands a b s.incPc).va &&& (operands a b s.incPc).vb = 0#16) →
    ∃ t, step s = .next t ∧ t.halted = false ∧
      t.headerWord = s.readMem (s.pc + BitVec.ofNat 16 (s.current.length s.cfg) + 1#16)

/-- R190, R208: a call followed, at its target, by `SET PC, POP` (0x61C1) comes back to the word after the call, with SP, the
general registers and O as the call's operand left them. The spec's own choices in it: decisions D7, D8, D9 (log entries 10,
11, 12). -/
def Obligations.ReturnUndoesCall : Prop :=
  ∀ (s : State) (b : Operand), s.halted = false → s.current = .jsr b →
    ∃ t, step s = .next t ∧ (t.headerWord = 0x61C1#16 →
      ∃ u, step t = .next u ∧ u.pc = s.pc + BitVec.ofNat 16 (1 + b.ext) ∧ u.sp = s.sp + spDelta b ∧
        u.x = s.x ∧ u.o = s.o ∧ u.halted = false)

/-! ## Operand resolution -/

/-- R113: fields 0x00-0x07 select a register and 0x08-0x0F the word it points at, with no side effect. -/
def Obligations.RegisterFieldsResolve : Prop :=
  ∀ (r : Reg) (s : State),
    resolve (Operand.ofField (BitVec.ofNat 6 r.num)) s = (.reg r, s) ∧
    resolve (Operand.ofField (BitVec.ofNat 6 (0x08 + r.num))) s = (.mem (s.reg r), s)

/-- R114: fields 0x10-0x17 consume the word at the pc and select the word at its sum with the register, modulo 2^16. The
spec's own choices in it: decisions D3, D7 (log entries 10, 18). -/
def Obligations.RegisterPlusNextWordResolves : Prop :=
  ∀ (r : Reg) (s : State),
    resolve (Operand.ofField (BitVec.ofNat 6 (0x10 + r.num))) s =
      (.mem (BitVec.ofNat 16 ((s.reg r).toNat + (s.readMem s.pc).toNat)),
        { s with pc := s.pc + 1#16, cycles := s.cycles + s.cfg.extraWordCycles })

/-- R115, R116, R117: POP selects the old top and raises SP, PEEK selects the top, PUSH lowers SP and selects the new top,
all modulo 2^16 and at the moment of resolution. The spec's own choices in it: decisions D7, D8 (log entries 10, 11). -/
def Obligations.StackFieldsResolve : Prop :=
  ∀ s : State,
    resolve (Operand.ofField 0x18#6) s = (.mem s.sp, { s with sp := BitVec.ofNat 16 (s.sp.toNat + 1) }) ∧
    resolve (Operand.ofField 0x19#6) s = (.mem s.sp, s) ∧
    resolve (Operand.ofField 0x1A#6) s =
      (.mem (BitVec.ofNat 16 (s.sp.toNat + 0xFFFF)), { s with sp := BitVec.ofNat 16 (s.sp.toNat + 0xFFFF) })

/-- R118: fields 0x1B, 0x1C and 0x1D select SP, PC and O themselves, with no side effect. -/
def Obligations.SpecialRegisterFieldsResolve : Prop :=
  ∀ s : State,
    resolve (Operand.ofField 0x1B#6) s = (.spReg, s) ∧ resolve (Operand.ofField 0x1C#6) s = (.pcReg, s) ∧
    resolve (Operand.ofField 0x1D#6) s = (.oReg, s)

/-- R120: fields 0x1E and 0x1F consume the word at the pc, and select the word at that address or that value. The spec's own
choices in it: decisions D3, D7 (log entries 10, 18). -/
def Obligations.NextWordFieldsResolve : Prop :=
  ∀ s : State,
    resolve (Operand.ofField 0x1E#6) s =
      (.mem (s.readMem s.pc), { s with pc := s.pc + 1#16, cycles := s.cycles + s.cfg.extraWordCycles }) ∧
    resolve (Operand.ofField 0x1F#6) s =
      (.lit (s.readMem s.pc), { s with pc := s.pc + 1#16, cycles := s.cycles + s.cfg.extraWordCycles })

/-- R121: fields 0x20-0x3F select the value of the field less 0x20, with no side effect. -/
def Obligations.EmbeddedLiteralFieldsResolve : Prop :=
  ∀ (f : OpField) (s : State), 0x20 ≤ f.toNat →
    resolve (Operand.ofField f) s = (.lit (BitVec.ofNat 16 (f.toNat - 0x20)), s)

/-- R75, R123, R126, R129, R133: operand A is resolved first, B in the state A's resolution leaves, and both values are read
after both resolutions. Together these move the pc past the extra words, SP once for each stack operand and the cycle counter
by the surcharges, and change nothing else. The spec's own choices in it: decisions D3, D7, D8, D9 (log entries 10, 11, 12,
18). -/
def Obligations.ResolutionMovesOnlyPcSpAndCycles : Prop :=
  ∀ (a b : Operand) (s : State),
    (operands a b s).la = (resolve a s).1 ∧
    (operands a b s).lb = (resolve b (resolve a s).2).1 ∧
    (operands a b s).after = (resolve b (resolve a s).2).2 ∧
    (operands a b s).va = readLoc (resolve a s).1 (resolve b (resolve a s).2).2 ∧
    (operands a b s).vb = readLoc (resolve b (resolve a s).2).1 (resolve b (resolve a s).2).2 ∧
    (operands a b s).after =
      { s with
        pc := s.pc + BitVec.ofNat 16 (a.ext + b.ext)
        sp := s.sp + spDelta a + spDelta b
        cycles := s.cycles + s.cfg.extraWordCycles * (a.ext + b.ext) }

/-- R124, R125: what each location reads; a location that is no literal reads as what was written to it, every other location
reads as before, and a write to a literal appends one record and does nothing else (R205). The spec's own choices in it:
decisions D15, D17 (log entries 17, 19). -/
def Obligations.LocationsReadWhatWasWritten : Prop :=
  ∀ (p w : Word) (l : Loc) (v : Word) (s : State),
    ((∀ r : Reg, readLoc (.reg r) s = s.reg r) ∧ (∀ a : Word, readLoc (.mem a) s = s.readMem a) ∧
      readLoc .spReg s = s.sp ∧ readLoc .pcReg s = s.pc ∧ readLoc .oReg s = s.o ∧
      (∀ u : Word, readLoc (.lit u) s = u)) ∧
    (l.isLit = false → readLoc l (writeLoc p w l v s) = v) ∧
    (∀ k : Loc, k ≠ l → readLoc k (writeLoc p w l v s) = readLoc k s) ∧
    (l.isLit = true → writeLoc p w l v s = { s with diags := s.diags ++ [⟨.writeToLiteral, p, w⟩] })

/-! ## Instructions that write A -/

/-- R153: SET copies B to A, leaves O, and costs 1. The spec's own choices in it: decisions D3, D7, D8, D9, D10, D15, D17
(log entries 10, 11, 12, 14, 17, 18, 19). -/
def Obligations.SetCopies : Prop := AluEffect 0x1#4 .set 1 (fun _ _ vb => vb) (fun _ _ _ => none)

/-- R154: ADD leaves the sum modulo 2^16 in A and the carry in O, and costs 2. The spec's own choices in it: decisions D3,
D7, D8, D9, D10, D15, D17, D23, D28 (log entries 10, 11, 12, 14, 17, 18, 19, 24, 26). -/
def Obligations.AddLeavesSumAndCarry : Prop :=
  AluEffect 0x2#4 .add 2 (fun _ va vb => BitVec.ofNat 16 (va.toNat + vb.toNat))
    (fun _ va vb => some (if 0x10000 ≤ va.toNat + vb.toNat then 1#16 else 0#16))

/-- R155: SUB leaves A - B modulo 2^16 in A and the borrow, 0xFFFF or 0, in O, and costs 2. The spec's own choices in it:
decisions D3, D7, D8, D9, D10, D15, D17, D23, D28 and general knowledge G5 (log entries 10, 11, 12, 14, 17, 18, 19, 24, 26,
30). -/
def Obligations.SubLeavesDifferenceAndBorrow : Prop :=
  AluEffect 0x3#4 .sub 2 (fun _ va vb => BitVec.ofNat 16 (va.toNat + 0x10000 - vb.toNat))
    (fun _ va vb => some (if va.toNat < vb.toNat then 0xFFFF#16 else 0#16))

/-- R156: MUL leaves the low half of the product in A and the high half in O, and costs 3. The spec's own choices in it:
decisions D3, D7, D8, D9, D10, D15, D17, D23, D28 (log entries 10, 11, 12, 14, 17, 18, 19, 24, 26). -/
def Obligations.MulLeavesBothHalves : Prop :=
  AluEffect 0x4#4 .mul 3 (fun _ va vb => BitVec.ofNat 16 (va.toNat * vb.toNat))
    (fun _ va vb => some (BitVec.ofNat 16 (va.toNat * vb.toNat / 0x10000)))

/-- R157: DIV leaves the quotient in A, 0 for a zero divisor, and in O 0 or, under `FRACTION`, the fraction; it costs 3. The
spec's own choices in it: decisions D3, D7, D8, D9, D10, D11, D15, D17, D23, D28, conflict C2 and general knowledge G7, G8
(log entries 10, 11, 12, 14, 15, 17, 18, 19, 24, 26, 27, 30). -/
def Obligations.DivLeavesQuotient : Prop :=
  AluEffect 0x5#4 .div 3 (fun _ va vb => if vb = 0#16 then 0#16 else BitVec.ofNat 16 (va.toNat / vb.toNat))
    (fun c va vb => some (if vb = 0#16 then 0#16 else
      match c.divORule with
      | .highHalf => 0#16
      | .fraction => BitVec.ofNat 16 (va.toNat * 0x10000 / vb.toNat)))

/-- R158: MOD leaves the remainder in A, 0 for a zero divisor, and O as it was, and costs 3. The spec's own choices in it:
decisions D3, D7, D8, D9, D10, D15, D17, D23, D28, conflict C2 and general knowledge G9 (log entries 10, 11, 12, 14, 17, 18,
19, 24, 26, 27, 30). -/
def Obligations.ModLeavesRemainder : Prop :=
  AluEffect 0x6#4 .mod 3 (fun _ va vb => if vb = 0#16 then 0#16 else BitVec.ofNat 16 (va.toNat % vb.toNat))
    (fun _ _ _ => none)

/-- R159: SHL leaves A * 2^n modulo 2^16 in A and bits 31:16 of it in O, for the count n of `SHIFT_RULE`, and costs 2. The
spec's own choices in it: decisions D3, D7, D8, D9, D10, D13, D15, D17, D23, D28 and general knowledge G10 (log entries 10,
11, 12, 14, 16, 17, 18, 19, 24, 26, 30). -/
def Obligations.ShlLeavesBothHalves : Prop :=
  AluEffect 0x7#4 .shl 2 (fun c va vb => BitVec.ofNat 16 (va.toNat * 2 ^ countOf c vb))
    (fun c va vb => some (BitVec.ofNat 16 (va.toNat * 2 ^ countOf c vb / 0x10000)))

/-- R160: SHR leaves the floor of A / 2^n in A, and in O 0 or, under `FRACTION`, the bits shifted out; it costs 2. The spec's
own choices in it: decisions D3, D7, D8, D9, D10, D12, D13, D15, D17, D23, D28 and general knowledge G11, G12 (log entries
10, 11, 12, 14, 15, 16, 17, 18, 19, 24, 26, 30). -/
def Obligations.ShrLeavesQuotient : Prop :=
  AluEffect 0x8#4 .shr 2 (fun c va vb => BitVec.ofNat 16 (va.toNat / 2 ^ countOf c vb))
    (fun c va vb => some (match c.shrORule with
      | .highHalf => 0#16
      | .fraction => BitVec.ofNat 16 (va.toNat * 0x10000 / 2 ^ countOf c vb)))

/-- R161: AND leaves the bitwise conjunction in A and O as it was, and costs 1. The spec's own choices in it: decisions D3,
D7, D8, D9, D10, D15, D17, D28 and general knowledge G13 (log entries 10, 11, 12, 14, 17, 18, 19, 26, 30). -/
def Obligations.AndIsBitwise : Prop := AluEffect 0x9#4 .and 1 (fun _ va vb => va &&& vb) (fun _ _ _ => none)

/-- R162: BOR leaves the bitwise disjunction in A and O as it was, and costs 1. The spec's own choices in it: decisions D3,
D7, D8, D9, D10, D15, D17, D28 and general knowledge G14 (log entries 10, 11, 12, 14, 17, 18, 19, 26, 30). -/
def Obligations.BorIsBitwise : Prop := AluEffect 0xA#4 .bor 1 (fun _ va vb => va ||| vb) (fun _ _ _ => none)

/-- R163: XOR leaves the bitwise exclusive disjunction in A and O as it was, and costs 1. The spec's own choices in it:
decisions D3, D7, D8, D9, D10, D15, D17, D28 and general knowledge G15 (log entries 10, 11, 12, 14, 17, 18, 19, 26, 30). -/
def Obligations.XorIsBitwise : Prop := AluEffect 0xB#4 .xor 1 (fun _ va vb => va ^^^ vb) (fun _ _ _ => none)

/-- R129: what SET, ADD, SUB, MUL, DIV, MOD, SHL, SHR, AND, BOR and XOR leave unchanged: every register that is not the
destination, but for the pc past the extra words, SP by the stack operands, and O where the instruction writes it; every byte
of memory outside a destination in memory; the halt flag; the configuration; the diagnostics unless the destination is a
literal. The spec's own choices in it: decisions D7, D8, D15 and conflict C2 (log entries 10, 11, 17, 27). -/
def Obligations.AluInstructionsFrame : Prop :=
  ∀ (a b : Operand) (i : Instr) (s t : State), i ∈ aluInstrs a b → exec i s = .next t →
    (∀ q : Reg, (operands a b s).la ≠ .reg q → t.reg q = s.reg q) ∧
    ((operands a b s).la ≠ .pcReg → t.pc = s.pc + BitVec.ofNat 16 (a.ext + b.ext)) ∧
    ((operands a b s).la ≠ .spReg → t.sp = s.sp + spDelta a + spDelta b) ∧
    ((operands a b s).la ≠ .oReg → i ∈ [.set a b, .mod a b, .and a b, .bor a b, .xor a b] → t.o = s.o) ∧
    (∀ n, ¬ InStoredWord (operands a b s).la.address n → t.mem.readByte n = s.mem.readByte n) ∧
    t.halted = s.halted ∧ t.cfg = s.cfg ∧
    ((operands a b s).la.isLit = false → t.diags = s.diags)

/-- R132: `SET [r], [r]` leaves memory as it was, the very same cells of the canonical form (log entry 3), and nothing but
the cycle counter changes. The spec's own choice in it: decision D9 (log entry 12). -/
def Obligations.SelfCopyLeavesMemory : Prop :=
  ∀ (r : Reg) (s : State), s.mem.wf →
    exec (.set (.ind r) (.ind r)) s = .next { s with cycles := s.cycles + 1 }

/-! ## Conditionals -/

/-- R181: IFE goes on if A equals B and skips one word if not; nothing is written. The spec's own choices in it: decisions
D3, D7, D8, D9, D22, D28 (log entries 10, 11, 12, 18, 26). -/
def Obligations.IfeSkipsUnlessEqual : Prop := CondEffect 0xC#4 .ife (fun va vb => va = vb)

/-- R182: IFN goes on if A differs from B. The spec's own choices in it: decisions D3, D7, D8, D9, D22, D28 and general
knowledge G16 (log entries 10, 11, 12, 18, 26, 30). -/
def Obligations.IfnSkipsUnlessDifferent : Prop := CondEffect 0xD#4 .ifn (fun va vb => va ≠ vb)

/-- R183: IFG goes on if A is greater than B, unsigned. The spec's own choices in it: decisions D3, D7, D8, D9, D22, D23, D28
and general knowledge G17 (log entries 10, 11, 12, 18, 24, 26, 30). -/
def Obligations.IfgSkipsUnlessGreater : Prop := CondEffect 0xE#4 .ifg (fun va vb => vb.toNat < va.toNat)

/-- R184: IFB goes on if A and B share a set bit. The spec's own choices in it: decisions D3, D7, D8, D9, D22, D28 and
general knowledge G18 (log entries 10, 11, 12, 18, 26, 30). -/
def Obligations.IfbSkipsUnlessCommonBit : Prop :=
  CondEffect 0xF#4 .ifb (fun va vb => ∃ k, va.getLsbD k = true ∧ vb.getLsbD k = true)

/-! ## Non-basic instructions -/

/-- R190: JSR completes for every operand: with the operand resolved, it lowers SP, stores the pc there, jumps to the value
read before the push, adds `JSR_CYCLES`, and changes nothing else. The spec's own choices in it: decisions D2, D3, D7, D8, D9
(log entries 10, 11, 12, 18). -/
def Obligations.JsrPushesAndJumps : Prop :=
  ∀ (b : Operand) (s : State),
    exec (.jsr b) s = .next
      { s with
        pc := readLoc (resolve b s).1 (resolve b s).2
        sp := s.sp + spDelta b - 1#16
        mem := s.mem.writeWord (s.sp + spDelta b - 1#16) (s.pc + BitVec.ofNat 16 b.ext)
        cycles := s.cycles + s.cfg.extraWordCycles * b.ext + s.cfg.jsrCycles }

/-- R196: HALT completes for every operand: it sets the halt flag; beside that only its operand's side effects happen, and
under `NONBASIC_A_RESOLVED` those of field A (R128). The spec's own choices in it: decisions D1, D3, D7, D8, D14, D15, D16
and conflicts C4, C5 (log entries 1, 10, 11, 13, 17, 18, 29). -/
def Obligations.HaltSetsTheHaltFlag : Prop :=
  ∀ (subop : OpField) (b : Operand) (s : State),
    exec (.halt subop b) s = .next
      { s with
        halted := true
        pc := s.pc + BitVec.ofNat 16 ((Instr.halt subop b).extraWords s.cfg)
        sp := s.sp + subopSpDelta s.cfg subop + spDelta b
        cycles := s.cycles + s.cfg.extraWordCycles * (Instr.halt subop b).extraWords s.cfg }

/-- R197: a reserved sub-opcode completes for every operand: it appends one record; beside that only its operand's side
effects happen, and under `NONBASIC_A_RESOLVED` those of field A (R128). The spec's own choices in it: decisions D1, D3, D7,
D8, D14, D15, D16, D17 and conflicts C4, C5 (log entries 1, 10, 11, 13, 17, 18, 19, 29). -/
def Obligations.ReservedSubOpcodeOnlyReports : Prop :=
  ∀ (subop : OpField) (b : Operand) (s : State),
    exec (.reserved subop b) s = .next
      { s with
        diags := s.diags ++ [⟨.invalidNonBasicSubOpcode, s.pc - 1#16, header 0x0#4 subop b.toField⟩]
        pc := s.pc + BitVec.ofNat 16 ((Instr.reserved subop b).extraWords s.cfg)
        sp := s.sp + subopSpDelta s.cfg subop + spDelta b
        cycles := s.cycles + s.cfg.extraWordCycles * (Instr.reserved subop b).extraWords s.cfg }

/-! ## Memory -/

/-- R56: a write changes the word addressed and no other. -/
def Obligations.WritesChangeOneWord : Prop :=
  ∀ (s : State) (a b v : Word), (s.writeMem a v).readMem b = if b = a then v else s.readMem b

/-- Model's own (log entry 3): two canonical memories that read alike at every word address are the same data. -/
def Obligations.CanonicalMemoriesThatReadAlikeAreEqual : Prop :=
  ∀ m k : Memory, m.wf → k.wf → (∀ a : Word, m.readWord a = k.readWord a) → m = k

/-! ## Reset, image and assembler -/

/-- R8, R234: what reset leaves under the default parameters, and those parameters themselves, with `HALT_SUBOP` none (DESIGN
CHOICE of the model, log entry 1) and the memory in its canonical form (log entry 3). The spec's own choices in it: decisions
D2, D3, D4, D5, D6, D10, D11, D12, D13, D14, D17, D18, D19, conflicts C1, C4 and general knowledge G19 (log entries 2, 9, 13,
14, 15, 16, 18, 19, 20, 21). -/
def Obligations.ResetStateUnderTheDefaults : Prop :=
  State.reset.Inv ∧ State.reset.pc = 0#16 ∧ State.reset.sp = 0#16 ∧ State.reset.o = 0#16 ∧
  (∀ r : Reg, State.reset.reg r = 0#16) ∧ (∀ a : Word, State.reset.readMem a = 0#16) ∧
  State.reset.cycles = 0 ∧ State.reset.halted = false ∧ State.reset.diags = [] ∧
  State.reset.cfg.haltSubop = none ∧ State.reset.cfg.jsrCycles = 2 ∧ State.reset.cfg.extraWordCycles = 1 ∧
  State.reset.cfg.divORule = .highHalf ∧ State.reset.cfg.shrORule = .highHalf ∧ State.reset.cfg.shiftRule = .exact ∧
  State.reset.cfg.oWriteOrder = .aLast ∧ State.reset.cfg.nonbasicAResolved = false

/-- R231, R234: what the load of an image leaves, for every setting of the parameters: the image from address 0, the fill
past its end, the reset registers, the memory in its canonical form (log entry 3); an image of more than 65536 words is
refused. The spec's own choices in it: decisions D4, D5, D6, D17, D18, D19, D25 (log entries 2, 9, 19, 20, 21, 25). -/
def Obligations.LoadLeavesTheImageFromAddressZero : Prop :=
  ∀ (c : Config) (p : ResetParams) (image : List Word),
    (image.length ≤ 65536 → ∃ t, bootState c p image = .ok t ∧
      t.x = p.gpr ∧ t.pc = 0#16 ∧ t.sp = p.sp ∧ t.o = p.o ∧ t.cycles = 0 ∧ t.halted = false ∧ t.diags = [] ∧
      t.cfg = c ∧ (c.wf → t.Inv) ∧
      (∀ (k : Nat) (h : k < image.length), t.readMem (BitVec.ofNat 16 k) = image[k]) ∧
      (∀ a : Word, image.length ≤ a.toNat → t.readMem a = p.memFill a)) ∧
    (65536 < image.length → bootState c p image = .error .imageTooLarge)

/-- R234: `State.reset` is the machine that the load of an empty image under the defaults makes, with `HALT_SUBOP` none
(DESIGN CHOICE of the model, log entry 1). The spec's own choices in it: decisions D2, D3, D4, D5, D6, D10, D11, D12, D13,
D14, D17, D18, D19, conflicts C1, C4 and general knowledge G19 (log entries 2, 9, 13, 14, 15, 16, 18, 19, 20, 21). -/
def Obligations.ResetIsTheLoadOfAnEmptyImage : Prop :=
  bootState defaultConfig defaultReset [] = .ok State.reset

/-- R93, R232: reading the ROM text of a word stream, laid out as log entry 8 says, gives
the words back. -/
def Obligations.RomTextRoundTrip : Prop := ∀ ws : List Word, parseRom (renderRom ws) = .ok ws

/-- R232, R233: when a ROM text is a `RomFormatError`, that a file that cannot be opened is a `FileOpenError`, and that neither
run starts. R233 gives the causes of `RomFormatError`; that there is no other, so that a text with a second region, which R232
does not allow, is none, is the model's own reading (DEDUCED, log entry 7). -/
def Obligations.RomErrorsAreExactlyThese : Prop :=
  ∀ (c : Config) (p : ResetParams) (text : List Char),
    (parseRom text = .error .romFormatError ↔
      findMarker openBrace text = none ∨ findMarker closeBrace text = none ∨
      ∃ i j, findMarker openBrace text = some i ∧ findMarker closeBrace text = some j ∧
        (j < i ∨ (((text.drop (i + 2)).take (j - (i + 2))).filterMap hexValue).length % 4 ≠ 0)) ∧
    (parseRom text = .error .romFormatError → bootRom c p (some text) = .error .romFormatError) ∧
    bootRom c p none = .error .fileOpenError

/-- R92: an instruction emits as many words as pass 1 counted for it. -/
def Obligations.PassTwoEmitsWhatPassOneCounted : Prop :=
  ∀ (labels : List (List Char × Nat)) (i : AsmInstr) (ws : List Word), i.emit labels = .ok ws → ws.length = i.size

/-- R88, first example of §8: a word written as `0x` and four hex digits, those above 9 in lower case (DESIGN CHOICE, log entry
8), parses to the word. -/
def Obligations.HexNumeralsRoundTrip : Prop := ∀ w : Word, parseNum ('0' :: 'x' :: renderHex w) = .ok w

/-- R89: the eight register characters parse to their registers, of index 0 to 7 in that order, and no other character
parses. -/
def Obligations.RegisterCharactersParse : Prop :=
  (regChars.map fun e => e.2.num.val) = [0, 1, 2, 3, 4, 5, 6, 7] ∧
  ∀ ch : Char,
    (∀ r : Reg, parseReg ch = .ok r ↔ (ch, r) ∈ regChars) ∧
    ((∀ r : Reg, (ch, r) ∉ regChars) → parseReg ch = .error .invalidRegisterName)
end

