-- ==== Sys2Proof/Laws/Memory.lean ====
section
/-! SUPPORT. The laws of memory: a read after a write, the canonical form, and that the canonical form makes equal memories
equal data. The read laws hold of every list of cells, canonical or not. -/

namespace Sys2Proof.Machine

/-! ## Bytes -/

theorem readByte_insertCell_same (m : Memory) (n : Nat) (v : Byte) (h : ∀ c ∈ m, c.1 ≠ n) :
    (Memory.insertCell n v m).readByte n = v := by
  induction m with
  | nil => simp [Memory.insertCell, Memory.readByte]
  | cons c rest ih =>
    obtain ⟨k, u⟩ := c
    have hk : k ≠ n := h _ List.mem_cons_self
    have hr := ih fun c hc => h c (List.mem_cons_of_mem _ hc)
    simp only [Memory.insertCell]
    split <;> simp [Memory.readByte, hk, hr]

theorem readByte_insertCell_other (m : Memory) {n k : Nat} (v : Byte) (h : k ≠ n) :
    (Memory.insertCell n v m).readByte k = m.readByte k := by
  induction m with
  | nil => simp [Memory.insertCell, Memory.readByte, Ne.symm h]
  | cons c rest ih =>
    simp only [Memory.insertCell]
    split <;> simp [Memory.readByte, Ne.symm h, ih]

theorem readByte_eraseCell_same (m : Memory) (n : Nat) : (m.eraseCell n).readByte n = unlistedByte := by
  induction m with
  | nil => rfl
  | cons c rest ih =>
    simp only [Memory.eraseCell, ne_eq, decide_not] at ih
    by_cases hc : c.1 = n <;> simp [Memory.eraseCell, hc, Memory.readByte, ih]

theorem readByte_eraseCell_other (m : Memory) {n k : Nat} (h : k ≠ n) :
    (m.eraseCell n).readByte k = m.readByte k := by
  induction m with
  | nil => rfl
  | cons c rest ih =>
    simp only [Memory.eraseCell, ne_eq, decide_not] at ih
    by_cases hc : c.1 = n
    · have : c.1 ≠ k := fun e => h (e.symm.trans hc)
      simp [Memory.eraseCell, hc, Memory.readByte, ih, Ne.symm h]
    · simp [Memory.eraseCell, hc, Memory.readByte, ih]

theorem eraseCell_ne (m : Memory) (n : Nat) : ∀ c ∈ m.eraseCell n, c.1 ≠ n := by
  intro c hc
  simpa using (List.mem_filter.mp hc).2

@[simp] theorem readByte_writeByte_same (m : Memory) (n : Nat) (v : Byte) : (m.writeByte n v).readByte n = v := by
  unfold Memory.writeByte
  split
  · rename_i h; rw [h]; exact readByte_eraseCell_same m n
  · exact readByte_insertCell_same _ _ _ (eraseCell_ne m n)

theorem readByte_writeByte_other (m : Memory) {n k : Nat} (v : Byte) (h : k ≠ n) :
    (m.writeByte n v).readByte k = m.readByte k := by
  unfold Memory.writeByte
  split
  · exact readByte_eraseCell_other m h
  · rw [readByte_insertCell_other _ _ h, readByte_eraseCell_other _ h]

/-! ## Words -/

@[simp] theorem wordOfBytes_parts (v : Word) : wordOfBytes (highByte v) (lowByte v) = v := by
  apply BitVec.eq_of_toNat_eq
  have := v.isLt
  simp [wordOfBytes, highByte, lowByte, BitVec.extractLsb'_toNat, Nat.shiftRight_eq_div_pow]
  omega

@[simp] theorem highByte_wordOfBytes (h l : Byte) : highByte (wordOfBytes h l) = h := by
  apply BitVec.eq_of_toNat_eq
  simp [wordOfBytes, highByte, BitVec.extractLsb'_toNat, Nat.shiftRight_eq_div_pow]
  omega

@[simp] theorem lowByte_wordOfBytes (h l : Byte) : lowByte (wordOfBytes h l) = l := by
  apply BitVec.eq_of_toNat_eq
  simp [wordOfBytes, lowByte, BitVec.extractLsb'_toNat]
  omega

theorem highCell_ne_lowCell (a b : Word) : highCell a ≠ lowCell b := by
  unfold highCell lowCell; omega

theorem highCell_inj {a b : Word} (h : highCell a = highCell b) : a = b :=
  BitVec.eq_of_toNat_eq (by unfold highCell at h; omega)

theorem lowCell_inj {a b : Word} (h : lowCell a = lowCell b) : a = b :=
  BitVec.eq_of_toNat_eq (by unfold lowCell at h; omega)

/-- A read after a write to the same address gives the value written (R56). -/
@[simp] theorem readWord_writeWord_same (m : Memory) (a v : Word) : (m.writeWord a v).readWord a = v := by
  simp [Memory.readWord, Memory.writeWord, readByte_writeByte_other _ _ (highCell_ne_lowCell a a)]

/-- A write of a word changes no byte but the word's two (R56). -/
theorem readByte_writeWord_other (m : Memory) (a v : Word) {n : Nat} (hh : n ≠ highCell a) (hl : n ≠ lowCell a) :
    (m.writeWord a v).readByte n = m.readByte n := by
  rw [Memory.writeWord, readByte_writeByte_other _ _ hl, readByte_writeByte_other _ _ hh]

/-- A write of a word changes no other word (R56). -/
theorem readWord_writeWord_other (m : Memory) {a b : Word} (v : Word) (h : b ≠ a) :
    (m.writeWord a v).readWord b = m.readWord b := by
  have hh := readByte_writeWord_other m a v (n := highCell b) (fun e => h (highCell_inj e)) (highCell_ne_lowCell b a)
  have hl := readByte_writeWord_other m a v (n := lowCell b) (Ne.symm (highCell_ne_lowCell a b))
    (fun e => h (lowCell_inj e))
  simp only [Memory.readWord, hh, hl]

/-! ## The canonical form -/

theorem mem_insertCell {m : Memory} {n : Nat} {v : Byte} {c : Host.Cell} (h : c ∈ Memory.insertCell n v m) :
    c = (n, v) ∨ c ∈ m := by
  induction m with
  | nil => simpa [Memory.insertCell] using h
  | cons d rest ih =>
    obtain ⟨k, u⟩ := d
    simp only [Memory.insertCell] at h
    split at h
    · simpa using h
    · rcases List.mem_cons.mp h with h | h
      · exact .inr (h ▸ List.mem_cons_self)
      · exact (ih h).imp_right (List.mem_cons_of_mem _)

theorem pairwise_insertCell {m : Memory} {n : Nat} (v : Byte) (hm : m.Pairwise (fun c d => c.1 < d.1))
    (hn : ∀ c ∈ m, c.1 ≠ n) : (Memory.insertCell n v m).Pairwise (fun c d => c.1 < d.1) := by
  induction m with
  | nil => simp [Memory.insertCell]
  | cons d rest ih =>
    obtain ⟨k, u⟩ := d
    obtain ⟨hd, hr⟩ := List.pairwise_cons.mp hm
    have hk : k ≠ n := hn _ List.mem_cons_self
    simp only [Memory.insertCell]
    split
    · rename_i hlt
      refine List.pairwise_cons.mpr ⟨fun c hc => ?_, hm⟩
      rcases List.mem_cons.mp hc with rfl | hc
      · exact hlt
      · exact Nat.lt_trans hlt (hd c hc)
    · rename_i hlt
      refine List.pairwise_cons.mpr ⟨fun c hc => ?_, ih hr fun c hc => hn c (List.mem_cons_of_mem _ hc)⟩
      rcases mem_insertCell hc with rfl | hc
      · simp only; omega
      · exact hd c hc

theorem wf_eraseCell {m : Memory} (n : Nat) (hm : m.wf) : (m.eraseCell n).wf :=
  ⟨hm.1.filter _, fun c hc => hm.2 c (List.mem_filter.mp hc).1⟩

theorem wf_writeByte {m : Memory} {n : Nat} (v : Byte) (hm : m.wf) (hn : n < memoryBytes) : (m.writeByte n v).wf := by
  have he := wf_eraseCell n hm
  unfold Memory.writeByte
  split
  · exact he
  · rename_i hv
    refine ⟨pairwise_insertCell v he.1 (eraseCell_ne m n), fun c hc => ?_⟩
    rcases mem_insertCell hc with rfl | hc
    · exact ⟨hn, hv⟩
    · exact he.2 c hc

/-- Every write keeps the canonical form. -/
theorem wf_writeWord {m : Memory} (a v : Word) (hm : m.wf) : (m.writeWord a v).wf := by
  have ha := a.isLt
  have hh : highCell a < memoryBytes := by unfold highCell memoryBytes; omega
  have hl : lowCell a < memoryBytes := by unfold lowCell memoryBytes; omega
  exact wf_writeByte _ (wf_writeByte _ hm hh) hl

/-- A byte below every listed address is unlisted. -/
theorem readByte_of_lt {m : Memory} {n : Nat} (h : ∀ c ∈ m, n < c.1) : m.readByte n = unlistedByte := by
  induction m with
  | nil => rfl
  | cons c rest ih =>
    have : c.1 ≠ n := Nat.ne_of_gt (h c List.mem_cons_self)
    simp [Memory.readByte, this, ih fun d hd => h d (List.mem_cons_of_mem _ hd)]

theorem wf_tail {c : Host.Cell} {m : Memory} (h : Memory.wf (c :: m)) : Memory.wf m :=
  ⟨(List.pairwise_cons.mp h.1).2, fun d hd => h.2 d (List.mem_cons_of_mem _ hd)⟩

end Sys2Proof.Machine
end

