-- ==== Sys2Proof/Laws/Boot.lean ====
section
/-! SUPPORT. The memory built from a function of its addresses: it is canonical and reads as the function says. -/

namespace Sys2Proof.Machine

/-- The cells of the addresses from `j` on, as `Memory.ofBytes` lists them. -/
theorem readByte_cells (f : Nat → Byte) (k : Nat) : ∀ j n : Nat, j ≤ n → n < j + k →
    Memory.readByte ((List.range' j k).filterMap fun i => if f i = unlistedByte then none else some (i, f i)) n
      = f n := by
  induction k with
  | zero => intro j n h1 h2; omega
  | succ k ih =>
    intro j n h1 h2
    rw [List.range'_succ, List.filterMap_cons]
    by_cases hj : j = n
    · subst hj
      by_cases hf : f j = unlistedByte
      · simp only [hf, if_true]
        refine readByte_of_lt fun c hc => ?_
        obtain ⟨i, hi, hc⟩ := List.mem_filterMap.mp hc
        rw [List.mem_range'_1] at hi
        split at hc
        · simp at hc
        · simp only [Option.some.injEq] at hc
          rw [← hc]
          exact hi.1
      · simp [hf, Memory.readByte]
    · split
      · exact ih _ _ (by omega) (by omega)
      · rename_i b hb
        have hb1 : b.1 = j := by split at hb <;> simp at hb; rw [← hb]
        have hne : b.1 ≠ n := by omega
        simp only [Memory.readByte, hne, if_false]
        exact ih _ _ (by omega) (by omega)

theorem readByte_ofBytes (f : Nat → Byte) {n : Nat} (h : n < memoryBytes) : (Memory.ofBytes f).readByte n = f n := by
  have key := readByte_cells f memoryBytes 0 n (Nat.zero_le n) (by rwa [Nat.zero_add])
  rw [← List.range_eq_range'] at key
  unfold Memory.ofBytes
  exact key

theorem wf_ofBytes (f : Nat → Byte) : (Memory.ofBytes f).wf := by
  constructor
  · unfold Memory.ofBytes
    rw [List.pairwise_filterMap]
    refine List.Pairwise.imp ?_ List.pairwise_lt_range
    intro a b hab x hx y hy
    split at hx <;> simp at hx
    split at hy <;> simp at hy
    rw [← hx, ← hy]
    exact hab
  · intro c hc
    unfold Memory.ofBytes at hc
    obtain ⟨n, hn, hc⟩ := List.mem_filterMap.mp hc
    rw [List.mem_range] at hn
    split at hc <;> simp at hc
    rw [← hc]
    exact ⟨hn, ‹_›⟩

theorem wf_ofWords (f : Word → Word) : (Memory.ofWords f).wf := wf_ofBytes _

/-- A memory built from a function of its words reads as the function says at every address. -/
@[simp] theorem readWord_ofWords (f : Word → Word) (a : Word) : (Memory.ofWords f).readWord a = f a := by
  have ha := a.isLt
  have hh : highCell a < memoryBytes := by unfold highCell memoryBytes; omega
  have hl : lowCell a < memoryBytes := by unfold lowCell memoryBytes; omega
  have h1 : highCell a / 2 = a.toNat ∧ highCell a % 2 = 0 := by unfold highCell; omega
  have h2 : lowCell a / 2 = a.toNat ∧ lowCell a % 2 = 1 := by unfold lowCell; omega
  simp only [Memory.readWord, Memory.ofWords, readByte_ofBytes _ hh, readByte_ofBytes _ hl, byteOfWords, h1, h2]
  simp

/-- What `bootState` makes of an image that fits. -/
theorem bootState_of_le (c : Config) (p : ResetParams) {image : List Word} (h : image.length ≤ memoryWords) :
    bootState c p image = .ok
      { x := p.gpr, pc := 0x0000#16, sp := p.sp, o := p.o, mem := Memory.ofWords (imageWord p.memFill image),
        cycles := 0, halted := false, diags := [], cfg := c } := if_pos h

end Sys2Proof.Machine
end

