-- ==== Sys2Proof/Laws/Encoding.lean ====
section
/-! SUPPORT. Encoding and decoding agree, field by field: registers, operand fields, header fields. -/

namespace Sys2Proof

@[simp] theorem Reg.ofBits_toBits (r : Reg) : Reg.ofBits r.toBits = r := by cases r <;> rfl

@[simp] theorem Reg.toBits_ofBits (n : BitVec 3) : (Reg.ofBits n).toBits = n := by
  revert n; decide

theorem Reg.num_injective {r q : Reg} (h : r.num = q.num) : r = q := by
  revert h; cases r <;> cases q <;> decide

@[simp] theorem Reg.num_inj {r q : Reg} : r.num = q.num ↔ r = q :=
  ⟨Reg.num_injective, fun h => h ▸ rfl⟩

/-- No operand form is lost by encoding it (R73). -/
@[simp] theorem Operand.ofField_toField (p : Operand) : Operand.ofField p.toField = p := by
  cases p with
  | reg r => cases r <;> rfl
  | ind r => cases r <;> rfl
  | indNext r => cases r <;> rfl
  | lit v => revert v; decide
  | pop => rfl
  | peek => rfl
  | push => rfl
  | sp => rfl
  | pc => rfl
  | o => rfl
  | memNext => rfl
  | litNext => rfl

/-- No two fields select the same form (R73). -/
@[simp] theorem Operand.toField_ofField (f : OpField) : (Operand.ofField f).toField = f := by
  revert f; decide

@[simp] theorem fieldOp_header (op : BitVec 4) (a b : OpField) : fieldOp (header op a b) = op := by
  ext i hi
  have : i < 10 := by omega
  have : i < 16 := by omega
  simp [fieldOp, header, BitVec.getLsbD_eq_getElem, *]

@[simp] theorem fieldA_header (op : BitVec 4) (a b : OpField) : fieldA (header op a b) = a := by
  ext i hi
  have : 4 + i < 16 := by omega
  have : 4 + i < 10 := by omega
  have : ¬ 4 + i < 4 := by omega
  simp [fieldA, header, BitVec.getLsbD_eq_getElem, *]

@[simp] theorem fieldB_header (op : BitVec 4) (a b : OpField) : fieldB (header op a b) = b := by
  ext i hi
  have : 10 + i < 16 := by omega
  have : ¬ 10 + i < 10 := by omega
  have : ¬ 10 + i < 4 := by omega
  have : op.getLsbD (10 + i) = false := BitVec.getLsbD_of_ge _ _ (by omega)
  have : a.getLsbD (10 + i - 4) = false := BitVec.getLsbD_of_ge _ _ (by omega)
  simp [fieldB, header, BitVec.getLsbD_eq_getElem, *]

/-- The three fields are all of a header word (R70). -/
@[simp] theorem header_fields (w : Word) : header (fieldOp w) (fieldA w) (fieldB w) = w := by
  ext i hi
  simp only [fieldOp, fieldA, fieldB, header]
  by_cases h : i < 4
  · have : i < 10 := by omega
    simp [h, this, BitVec.getLsbD_eq_getElem, hi]
  · by_cases h' : i < 10
    · have h1 : i - 4 < 6 := by omega
      have h2 : 4 + (i - 4) = i := by omega
      simp [h, h', h1, h2, BitVec.getLsbD_eq_getElem, hi]
    · have h1 : ¬ i - 4 < 6 := by omega
      have h2 : 10 + (i - 10) = i := by omega
      have h3 : i - 10 < 6 := by omega
      simp [h, h', h1, h2, h3, BitVec.getLsbD_eq_getElem, hi]

/-- A header word as a number (R83). -/
theorem header_toNat (op : BitVec 4) (a b : OpField) :
    (header op a b).toNat = op.toNat + a.toNat * 16 + b.toNat * 1024 := by
  obtain ⟨w, rfl, rfl, rfl⟩ : ∃ w : Word, op = fieldOp w ∧ a = fieldA w ∧ b = fieldB w :=
    ⟨header op a b, by simp, by simp, by simp⟩
  have := w.isLt
  rw [header_fields]
  simp only [fieldOp, fieldA, fieldB, BitVec.extractLsb'_toNat, Nat.shiftRight_eq_div_pow]
  omega

/-- What a header word decodes to, opcode by opcode (R78). -/
theorem decode_cases (c : Config) (w : Word) :
    let a := Operand.ofField (fieldA w)
    let b := Operand.ofField (fieldB w)
    (fieldOp w = 0x0 ∧ decode c w = decodeNonBasic c (fieldA w) b) ∨
    (fieldOp w = 0x1 ∧ decode c w = .set a b) ∨ (fieldOp w = 0x2 ∧ decode c w = .add a b) ∨
    (fieldOp w = 0x3 ∧ decode c w = .sub a b) ∨ (fieldOp w = 0x4 ∧ decode c w = .mul a b) ∨
    (fieldOp w = 0x5 ∧ decode c w = .div a b) ∨ (fieldOp w = 0x6 ∧ decode c w = .mod a b) ∨
    (fieldOp w = 0x7 ∧ decode c w = .shl a b) ∨ (fieldOp w = 0x8 ∧ decode c w = .shr a b) ∨
    (fieldOp w = 0x9 ∧ decode c w = .and a b) ∨ (fieldOp w = 0xA ∧ decode c w = .bor a b) ∨
    (fieldOp w = 0xB ∧ decode c w = .xor a b) ∨ (fieldOp w = 0xC ∧ decode c w = .ife a b) ∨
    (fieldOp w = 0xD ∧ decode c w = .ifn a b) ∨ (fieldOp w = 0xE ∧ decode c w = .ifg a b) ∨
    (fieldOp w = 0xF ∧ decode c w = .ifb a b) := by
  simp only [decode]
  generalize fieldOp w = op
  obtain ⟨⟨n, hn⟩⟩ := op
  have : n < 16 := hn
  interval_cases n <;> simp

end Sys2Proof
end

