-- ==== Sys2Proof/Laws/State.lean ====
section
/-! SUPPORT. One lemma per field of the state per named update: what the update does to the field. All of them hold by
definition, so that no later proof unfolds a record update. -/

namespace Sys2Proof.Machine

variable (s : State)

@[simp] theorem setReg_x (r : Reg) (v : Word) : (s.setReg r v).x = s.x.set r.num v := rfl
@[simp] theorem setReg_pc (r : Reg) (v : Word) : (s.setReg r v).pc = s.pc := rfl
@[simp] theorem setReg_sp (r : Reg) (v : Word) : (s.setReg r v).sp = s.sp := rfl
@[simp] theorem setReg_o (r : Reg) (v : Word) : (s.setReg r v).o = s.o := rfl
@[simp] theorem setReg_mem (r : Reg) (v : Word) : (s.setReg r v).mem = s.mem := rfl
@[simp] theorem setReg_cycles (r : Reg) (v : Word) : (s.setReg r v).cycles = s.cycles := rfl
@[simp] theorem setReg_halted (r : Reg) (v : Word) : (s.setReg r v).halted = s.halted := rfl
@[simp] theorem setReg_diags (r : Reg) (v : Word) : (s.setReg r v).diags = s.diags := rfl
@[simp] theorem setReg_cfg (r : Reg) (v : Word) : (s.setReg r v).cfg = s.cfg := rfl

@[simp] theorem setPc_x (v : Word) : (s.setPc v).x = s.x := rfl
@[simp] theorem setPc_pc (v : Word) : (s.setPc v).pc = v := rfl
@[simp] theorem setPc_sp (v : Word) : (s.setPc v).sp = s.sp := rfl
@[simp] theorem setPc_o (v : Word) : (s.setPc v).o = s.o := rfl
@[simp] theorem setPc_mem (v : Word) : (s.setPc v).mem = s.mem := rfl
@[simp] theorem setPc_cycles (v : Word) : (s.setPc v).cycles = s.cycles := rfl
@[simp] theorem setPc_halted (v : Word) : (s.setPc v).halted = s.halted := rfl
@[simp] theorem setPc_diags (v : Word) : (s.setPc v).diags = s.diags := rfl
@[simp] theorem setPc_cfg (v : Word) : (s.setPc v).cfg = s.cfg := rfl
@[simp] theorem setPc_reg (v : Word) (q : Reg) : (s.setPc v).reg q = s.reg q := rfl

@[simp] theorem setSp_x (v : Word) : (s.setSp v).x = s.x := rfl
@[simp] theorem setSp_pc (v : Word) : (s.setSp v).pc = s.pc := rfl
@[simp] theorem setSp_sp (v : Word) : (s.setSp v).sp = v := rfl
@[simp] theorem setSp_o (v : Word) : (s.setSp v).o = s.o := rfl
@[simp] theorem setSp_mem (v : Word) : (s.setSp v).mem = s.mem := rfl
@[simp] theorem setSp_cycles (v : Word) : (s.setSp v).cycles = s.cycles := rfl
@[simp] theorem setSp_halted (v : Word) : (s.setSp v).halted = s.halted := rfl
@[simp] theorem setSp_diags (v : Word) : (s.setSp v).diags = s.diags := rfl
@[simp] theorem setSp_cfg (v : Word) : (s.setSp v).cfg = s.cfg := rfl
@[simp] theorem setSp_reg (v : Word) (q : Reg) : (s.setSp v).reg q = s.reg q := rfl

@[simp] theorem setO_x (v : Word) : (s.setO v).x = s.x := rfl
@[simp] theorem setO_pc (v : Word) : (s.setO v).pc = s.pc := rfl
@[simp] theorem setO_sp (v : Word) : (s.setO v).sp = s.sp := rfl
@[simp] theorem setO_o (v : Word) : (s.setO v).o = v := rfl
@[simp] theorem setO_mem (v : Word) : (s.setO v).mem = s.mem := rfl
@[simp] theorem setO_cycles (v : Word) : (s.setO v).cycles = s.cycles := rfl
@[simp] theorem setO_halted (v : Word) : (s.setO v).halted = s.halted := rfl
@[simp] theorem setO_diags (v : Word) : (s.setO v).diags = s.diags := rfl
@[simp] theorem setO_cfg (v : Word) : (s.setO v).cfg = s.cfg := rfl
@[simp] theorem setO_reg (v : Word) (q : Reg) : (s.setO v).reg q = s.reg q := rfl

@[simp] theorem writeMem_x (a v : Word) : (s.writeMem a v).x = s.x := rfl
@[simp] theorem writeMem_pc (a v : Word) : (s.writeMem a v).pc = s.pc := rfl
@[simp] theorem writeMem_sp (a v : Word) : (s.writeMem a v).sp = s.sp := rfl
@[simp] theorem writeMem_o (a v : Word) : (s.writeMem a v).o = s.o := rfl
@[simp] theorem writeMem_mem (a v : Word) : (s.writeMem a v).mem = s.mem.writeWord a v := rfl
@[simp] theorem writeMem_cycles (a v : Word) : (s.writeMem a v).cycles = s.cycles := rfl
@[simp] theorem writeMem_halted (a v : Word) : (s.writeMem a v).halted = s.halted := rfl
@[simp] theorem writeMem_diags (a v : Word) : (s.writeMem a v).diags = s.diags := rfl
@[simp] theorem writeMem_cfg (a v : Word) : (s.writeMem a v).cfg = s.cfg := rfl
@[simp] theorem writeMem_reg (a v : Word) (q : Reg) : (s.writeMem a v).reg q = s.reg q := rfl

@[simp] theorem addCycles_x (n : Nat) : (s.addCycles n).x = s.x := rfl
@[simp] theorem addCycles_pc (n : Nat) : (s.addCycles n).pc = s.pc := rfl
@[simp] theorem addCycles_sp (n : Nat) : (s.addCycles n).sp = s.sp := rfl
@[simp] theorem addCycles_o (n : Nat) : (s.addCycles n).o = s.o := rfl
@[simp] theorem addCycles_mem (n : Nat) : (s.addCycles n).mem = s.mem := rfl
@[simp] theorem addCycles_cycles (n : Nat) : (s.addCycles n).cycles = s.cycles + n := rfl
@[simp] theorem addCycles_halted (n : Nat) : (s.addCycles n).halted = s.halted := rfl
@[simp] theorem addCycles_diags (n : Nat) : (s.addCycles n).diags = s.diags := rfl
@[simp] theorem addCycles_cfg (n : Nat) : (s.addCycles n).cfg = s.cfg := rfl
@[simp] theorem addCycles_reg (n : Nat) (q : Reg) : (s.addCycles n).reg q = s.reg q := rfl

@[simp] theorem halt_x : s.halt.x = s.x := rfl
@[simp] theorem halt_pc : s.halt.pc = s.pc := rfl
@[simp] theorem halt_sp : s.halt.sp = s.sp := rfl
@[simp] theorem halt_o : s.halt.o = s.o := rfl
@[simp] theorem halt_mem : s.halt.mem = s.mem := rfl
@[simp] theorem halt_cycles : s.halt.cycles = s.cycles := rfl
@[simp] theorem halt_halted : s.halt.halted = true := rfl
@[simp] theorem halt_diags : s.halt.diags = s.diags := rfl
@[simp] theorem halt_cfg : s.halt.cfg = s.cfg := rfl
@[simp] theorem halt_reg (q : Reg) : s.halt.reg q = s.reg q := rfl

@[simp] theorem raise_x (k : DiagKind) (p w : Word) : (s.raise k p w).x = s.x := rfl
@[simp] theorem raise_pc (k : DiagKind) (p w : Word) : (s.raise k p w).pc = s.pc := rfl
@[simp] theorem raise_sp (k : DiagKind) (p w : Word) : (s.raise k p w).sp = s.sp := rfl
@[simp] theorem raise_o (k : DiagKind) (p w : Word) : (s.raise k p w).o = s.o := rfl
@[simp] theorem raise_mem (k : DiagKind) (p w : Word) : (s.raise k p w).mem = s.mem := rfl
@[simp] theorem raise_cycles (k : DiagKind) (p w : Word) : (s.raise k p w).cycles = s.cycles := rfl
@[simp] theorem raise_halted (k : DiagKind) (p w : Word) : (s.raise k p w).halted = s.halted := rfl
@[simp] theorem raise_diags (k : DiagKind) (p w : Word) : (s.raise k p w).diags = s.diags ++ [⟨k, p, w⟩] := rfl
@[simp] theorem raise_cfg (k : DiagKind) (p w : Word) : (s.raise k p w).cfg = s.cfg := rfl
@[simp] theorem raise_reg (k : DiagKind) (p w : Word) (q : Reg) : (s.raise k p w).reg q = s.reg q := rfl

@[simp] theorem incPc_x : s.incPc.x = s.x := rfl
@[simp] theorem incPc_pc : s.incPc.pc = s.pc + 1#16 := rfl
@[simp] theorem incPc_sp : s.incPc.sp = s.sp := rfl
@[simp] theorem incPc_o : s.incPc.o = s.o := rfl
@[simp] theorem incPc_mem : s.incPc.mem = s.mem := rfl
@[simp] theorem incPc_cycles : s.incPc.cycles = s.cycles := rfl
@[simp] theorem incPc_halted : s.incPc.halted = s.halted := rfl
@[simp] theorem incPc_diags : s.incPc.diags = s.diags := rfl
@[simp] theorem incPc_cfg : s.incPc.cfg = s.cfg := rfl
@[simp] theorem incPc_reg (q : Reg) : s.incPc.reg q = s.reg q := rfl

@[simp] theorem incSp_x : s.incSp.x = s.x := rfl
@[simp] theorem incSp_pc : s.incSp.pc = s.pc := rfl
@[simp] theorem incSp_sp : s.incSp.sp = s.sp + 1#16 := rfl
@[simp] theorem incSp_o : s.incSp.o = s.o := rfl
@[simp] theorem incSp_mem : s.incSp.mem = s.mem := rfl
@[simp] theorem incSp_cycles : s.incSp.cycles = s.cycles := rfl
@[simp] theorem incSp_halted : s.incSp.halted = s.halted := rfl
@[simp] theorem incSp_diags : s.incSp.diags = s.diags := rfl
@[simp] theorem incSp_cfg : s.incSp.cfg = s.cfg := rfl
@[simp] theorem incSp_reg (q : Reg) : s.incSp.reg q = s.reg q := rfl

@[simp] theorem decSp_x : s.decSp.x = s.x := rfl
@[simp] theorem decSp_pc : s.decSp.pc = s.pc := rfl
@[simp] theorem decSp_sp : s.decSp.sp = s.sp - 1#16 := rfl
@[simp] theorem decSp_o : s.decSp.o = s.o := rfl
@[simp] theorem decSp_mem : s.decSp.mem = s.mem := rfl
@[simp] theorem decSp_cycles : s.decSp.cycles = s.cycles := rfl
@[simp] theorem decSp_halted : s.decSp.halted = s.halted := rfl
@[simp] theorem decSp_diags : s.decSp.diags = s.diags := rfl
@[simp] theorem decSp_cfg : s.decSp.cfg = s.cfg := rfl
@[simp] theorem decSp_reg (q : Reg) : s.decSp.reg q = s.reg q := rfl

@[simp] theorem pushWord_x (v : Word) : (s.pushWord v).x = s.x := rfl
@[simp] theorem pushWord_pc (v : Word) : (s.pushWord v).pc = s.pc := rfl
@[simp] theorem pushWord_sp (v : Word) : (s.pushWord v).sp = s.sp - 1#16 := rfl
@[simp] theorem pushWord_o (v : Word) : (s.pushWord v).o = s.o := rfl
@[simp] theorem pushWord_mem (v : Word) : (s.pushWord v).mem = s.mem.writeWord (s.sp - 1#16) v := rfl
@[simp] theorem pushWord_cycles (v : Word) : (s.pushWord v).cycles = s.cycles := rfl
@[simp] theorem pushWord_halted (v : Word) : (s.pushWord v).halted = s.halted := rfl
@[simp] theorem pushWord_diags (v : Word) : (s.pushWord v).diags = s.diags := rfl
@[simp] theorem pushWord_cfg (v : Word) : (s.pushWord v).cfg = s.cfg := rfl
@[simp] theorem pushWord_reg (v : Word) (q : Reg) : (s.pushWord v).reg q = s.reg q := rfl

@[simp] theorem readMem_eq (a : Word) : s.readMem a = s.mem.readWord a := rfl
@[simp] theorem nextWord_fst : (nextWord s).1 = s.mem.readWord s.pc := rfl
@[simp] theorem nextWord_snd : (nextWord s).2 = s.incPc.addCycles s.cfg.extraWordCycles := rfl
@[simp] theorem fetchHeader_fst : (fetchHeader s).1 = s.mem.readWord s.pc := rfl
@[simp] theorem fetchHeader_snd : (fetchHeader s).2 = s.incPc := rfl

/-- The header address of R110 as a meaning recovers it: the pc before the fetch. -/
@[simp] theorem hdrAddrOf_incPc : hdrAddrOf s.incPc = s.pc := by
  simp [hdrAddrOf]

/-! ## The update of O and the skip -/

@[simp] theorem updateO_x (v : Option Word) : (updateO v s).x = s.x := by cases v <;> rfl
@[simp] theorem updateO_pc (v : Option Word) : (updateO v s).pc = s.pc := by cases v <;> rfl
@[simp] theorem updateO_sp (v : Option Word) : (updateO v s).sp = s.sp := by cases v <;> rfl
@[simp] theorem updateO_o (v : Option Word) : (updateO v s).o = v.getD s.o := by cases v <;> rfl
@[simp] theorem updateO_mem (v : Option Word) : (updateO v s).mem = s.mem := by cases v <;> rfl
@[simp] theorem updateO_cycles (v : Option Word) : (updateO v s).cycles = s.cycles := by cases v <;> rfl
@[simp] theorem updateO_halted (v : Option Word) : (updateO v s).halted = s.halted := by cases v <;> rfl
@[simp] theorem updateO_diags (v : Option Word) : (updateO v s).diags = s.diags := by cases v <;> rfl
@[simp] theorem updateO_cfg (v : Option Word) : (updateO v s).cfg = s.cfg := by cases v <;> rfl
@[simp] theorem updateO_reg (v : Option Word) (q : Reg) : (updateO v s).reg q = s.reg q := by cases v <;> rfl

@[simp] theorem condSkip_x (c : Bool) : (condSkip c s).x = s.x := by cases c <;> rfl
@[simp] theorem condSkip_pc (c : Bool) : (condSkip c s).pc = if c then s.pc else s.pc + 1#16 := by cases c <;> rfl
@[simp] theorem condSkip_sp (c : Bool) : (condSkip c s).sp = s.sp := by cases c <;> rfl
@[simp] theorem condSkip_o (c : Bool) : (condSkip c s).o = s.o := by cases c <;> rfl
@[simp] theorem condSkip_mem (c : Bool) : (condSkip c s).mem = s.mem := by cases c <;> rfl
@[simp] theorem condSkip_cycles (c : Bool) : (condSkip c s).cycles = s.cycles := by cases c <;> rfl
@[simp] theorem condSkip_halted (c : Bool) : (condSkip c s).halted = s.halted := by cases c <;> rfl
@[simp] theorem condSkip_diags (c : Bool) : (condSkip c s).diags = s.diags := by cases c <;> rfl
@[simp] theorem condSkip_cfg (c : Bool) : (condSkip c s).cfg = s.cfg := by cases c <;> rfl
@[simp] theorem condSkip_reg (c : Bool) (q : Reg) : (condSkip c s).reg q = s.reg q := by cases c <;> rfl

end Sys2Proof.Machine
end

