-- ==== Sys2Proof/Laws/Operands.lean ====
section
/-! SUPPORT. Everything operand resolution and the reading and writing of a location can do, field by field. Later proofs cite
these lemmas and do not unfold the operations. -/

namespace Sys2Proof.Machine

/-! ## Resolution (R113-R122) -/

@[simp] theorem resolve_x (p : Operand) (s : State) : (resolve p s).2.x = s.x := by cases p <;> rfl
@[simp] theorem resolve_o (p : Operand) (s : State) : (resolve p s).2.o = s.o := by cases p <;> rfl
@[simp] theorem resolve_mem (p : Operand) (s : State) : (resolve p s).2.mem = s.mem := by cases p <;> rfl
@[simp] theorem resolve_halted (p : Operand) (s : State) : (resolve p s).2.halted = s.halted := by cases p <;> rfl
@[simp] theorem resolve_diags (p : Operand) (s : State) : (resolve p s).2.diags = s.diags := by cases p <;> rfl
@[simp] theorem resolve_cfg (p : Operand) (s : State) : (resolve p s).2.cfg = s.cfg := by cases p <;> rfl
@[simp] theorem resolve_reg (p : Operand) (s : State) (q : Reg) : (resolve p s).2.reg q = s.reg q := by cases p <;> rfl

/-- The pc moves past the extra word, if there is one (R119). -/
theorem resolve_pc (p : Operand) (s : State) : (resolve p s).2.pc = s.pc + BitVec.ofNat 16 p.ext := by
  cases p <;> simp [resolve, Operand.ext, Operand.hasExtra]

/-- The surcharge is paid once for an extra word (R119). -/
theorem resolve_cycles (p : Operand) (s : State) :
    (resolve p s).2.cycles = s.cycles + s.cfg.extraWordCycles * p.ext := by
  cases p <;> simp [resolve, Operand.ext, Operand.hasExtra]

/-- SP moves by one for POP and PUSH and not otherwise (R115-R117). -/
theorem resolve_sp (p : Operand) (s : State) : (resolve p s).2.sp = s.sp + spDelta p := by
  cases p <;> simp [resolve, spDelta, BitVec.sub_eq_add_neg]

/-! ## Both operands (R126) -/

section Operands
variable (a b : Operand) (s : State)

@[simp] theorem operands_after_x : (operands a b s).after.x = s.x := by simp [operands]
@[simp] theorem operands_after_o : (operands a b s).after.o = s.o := by simp [operands]
@[simp] theorem operands_after_mem : (operands a b s).after.mem = s.mem := by simp [operands]
@[simp] theorem operands_after_halted : (operands a b s).after.halted = s.halted := by simp [operands]
@[simp] theorem operands_after_diags : (operands a b s).after.diags = s.diags := by simp [operands]
@[simp] theorem operands_after_cfg : (operands a b s).after.cfg = s.cfg := by simp [operands]
@[simp] theorem operands_after_reg (q : Reg) : (operands a b s).after.reg q = s.reg q := by simp [operands]

theorem operands_after_pc : (operands a b s).after.pc = s.pc + BitVec.ofNat 16 (a.ext + b.ext) := by
  simp [operands, resolve_pc, BitVec.ofNat_add, BitVec.add_assoc]

theorem operands_after_cycles :
    (operands a b s).after.cycles = s.cycles + s.cfg.extraWordCycles * (a.ext + b.ext) := by
  simp [operands, resolve_cycles, Nat.mul_add, Nat.add_assoc]

theorem operands_after_sp : (operands a b s).after.sp = s.sp + spDelta a + spDelta b := by
  simp [operands, resolve_sp]

end Operands

/-! ## The operand of a non-basic form (R127, R128) -/

section NonBasic
variable (subop : OpField) (b : Operand) (s : State)

@[simp] theorem nonBasicOperand_x : (nonBasicOperand subop b s).2.x = s.x := by
  unfold nonBasicOperand; split <;> simp
@[simp] theorem nonBasicOperand_o : (nonBasicOperand subop b s).2.o = s.o := by
  unfold nonBasicOperand; split <;> simp
@[simp] theorem nonBasicOperand_mem : (nonBasicOperand subop b s).2.mem = s.mem := by
  unfold nonBasicOperand; split <;> simp
@[simp] theorem nonBasicOperand_halted : (nonBasicOperand subop b s).2.halted = s.halted := by
  unfold nonBasicOperand; split <;> simp
@[simp] theorem nonBasicOperand_diags : (nonBasicOperand subop b s).2.diags = s.diags := by
  unfold nonBasicOperand; split <;> simp
@[simp] theorem nonBasicOperand_cfg : (nonBasicOperand subop b s).2.cfg = s.cfg := by
  unfold nonBasicOperand; split <;> simp
@[simp] theorem nonBasicOperand_reg (q : Reg) : (nonBasicOperand subop b s).2.reg q = s.reg q := by
  unfold nonBasicOperand; split <;> simp

/-- The extra words of a non-basic form whose sub-opcode is `subop` (R76). -/
theorem extraWords_reserved (c : Config) : (Instr.reserved subop b).extraWords c =
    (if c.nonbasicAResolved then (Operand.ofField subop).ext else 0) + b.ext := rfl

theorem nonBasicOperand_pc : (nonBasicOperand subop b s).2.pc =
    s.pc + BitVec.ofNat 16 ((Instr.reserved subop b).extraWords s.cfg) := by
  unfold nonBasicOperand
  split <;> simp [*, resolve_pc, extraWords_reserved, BitVec.ofNat_add, BitVec.add_assoc]

theorem nonBasicOperand_cycles : (nonBasicOperand subop b s).2.cycles =
    s.cycles + s.cfg.extraWordCycles * (Instr.reserved subop b).extraWords s.cfg := by
  unfold nonBasicOperand
  split <;> simp [*, resolve_cycles, extraWords_reserved, Nat.mul_add, Nat.add_assoc]

theorem nonBasicOperand_sp :
    (nonBasicOperand subop b s).2.sp = s.sp + subopSpDelta s.cfg subop + spDelta b := by
  unfold nonBasicOperand
  split <;> simp [*, resolve_sp, subopSpDelta]

/-- Under either setting of `NONBASIC_A_RESOLVED` a JSR resolves operand B alone (R128). -/
theorem nonBasicOperand_jsr : nonBasicOperand 0x01#6 b s = (readLoc (resolve b s).1 (resolve b s).2, (resolve b s).2) := by
  have h : (resolve (Operand.ofField 0x01#6) s).2 = s := rfl
  unfold nonBasicOperand
  rw [h, ite_self]

end NonBasic

/-! ## Locations (R124, R125) -/

/-- A register write changes that register alone (R12, R129). -/
@[simp] theorem setReg_reg (s : State) (r q : Reg) (v : Word) :
    (s.setReg r v).reg q = if r = q then v else s.reg q := by
  have : (r.num : Nat) = q.num ↔ r = q := by rw [← Reg.num_inj]; exact Fin.val_inj
  simp [State.setReg, State.reg, Vector.getElem_set, this]

/-- A memory after a store to an address, or after none. -/
def storeAt (m : Memory) (k : Option Word) (v : Word) : Memory :=
  match k with
  | some a => m.writeWord a v
  | none => m

@[simp] theorem storeAt_none (m : Memory) (v : Word) : storeAt m none v = m := rfl
@[simp] theorem storeAt_some (m : Memory) (a v : Word) : storeAt m (some a) v = m.writeWord a v := rfl

/-- A store changes no byte outside the stored word. -/
theorem readByte_storeAt_other (m : Memory) (k : Option Word) (v : Word) {n : Nat} (h : ¬ InStoredWord k n) :
    (storeAt m k v).readByte n = m.readByte n := by
  cases k with
  | none => rfl
  | some a =>
    exact readByte_writeWord_other m a v (fun e => h ⟨a, rfl, .inl e⟩) (fun e => h ⟨a, rfl, .inr e⟩)

theorem wf_storeAt {m : Memory} (k : Option Word) (v : Word) (h : m.wf) : (storeAt m k v).wf := by
  cases k with
  | none => exact h
  | some a => exact wf_writeWord a v h

section WriteLoc
variable (p w : Word) (l : Loc) (v : Word) (s : State)

/-- What a write leaves in each field (R125). -/
theorem writeLoc_reg (q : Reg) : (writeLoc p w l v s).reg q = if l = .reg q then v else s.reg q := by
  cases l <;> simp [writeLoc, setReg_reg]

@[simp] theorem writeLoc_cycles : (writeLoc p w l v s).cycles = s.cycles := by cases l <;> rfl
@[simp] theorem writeLoc_halted : (writeLoc p w l v s).halted = s.halted := by cases l <;> rfl
@[simp] theorem writeLoc_cfg : (writeLoc p w l v s).cfg = s.cfg := by cases l <;> rfl

theorem writeLoc_pc : (writeLoc p w l v s).pc = if l = .pcReg then v else s.pc := by cases l <;> simp [writeLoc]
theorem writeLoc_sp : (writeLoc p w l v s).sp = if l = .spReg then v else s.sp := by cases l <;> simp [writeLoc]
theorem writeLoc_o : (writeLoc p w l v s).o = if l = .oReg then v else s.o := by cases l <;> simp [writeLoc]

theorem writeLoc_mem : (writeLoc p w l v s).mem = storeAt s.mem l.address v := by cases l <;> rfl

theorem writeLoc_diags : (writeLoc p w l v s).diags =
    if l.isLit then s.diags ++ [⟨.writeToLiteral, p, w⟩] else s.diags := by cases l <;> simp [writeLoc, Loc.isLit]

end WriteLoc

end Sys2Proof.Machine
end

