-- ==== Sys2Proof/Laws/Exec.lean ====
section
/-! SUPPORT. Everything each shared step shape can do, field by field: the ALU step and its write-back, the conditional step,
and the three non-basic forms. -/

namespace Sys2Proof.Machine

/-! ## The write-back (R152) -/

section WriteBack
variable (p w : Word) (l : Loc) (out : AluOut) (s : State)

theorem aluWriteBack_reg (q : Reg) :
    (aluWriteBack p w l out s).reg q = if l = .reg q then out.res else s.reg q := by
  unfold aluWriteBack
  split
  · rw [writeLoc_reg]; simp
  · simpa using writeLoc_reg p w l out.res s q

@[simp] theorem aluWriteBack_cycles : (aluWriteBack p w l out s).cycles = s.cycles := by
  unfold aluWriteBack; split <;> simp
@[simp] theorem aluWriteBack_halted : (aluWriteBack p w l out s).halted = s.halted := by
  unfold aluWriteBack; split <;> simp
@[simp] theorem aluWriteBack_cfg : (aluWriteBack p w l out s).cfg = s.cfg := by
  unfold aluWriteBack; split <;> simp

theorem aluWriteBack_pc : (aluWriteBack p w l out s).pc = if l = .pcReg then out.res else s.pc := by
  unfold aluWriteBack; split <;> simp [writeLoc_pc]

theorem aluWriteBack_sp : (aluWriteBack p w l out s).sp = if l = .spReg then out.res else s.sp := by
  unfold aluWriteBack; split <;> simp [writeLoc_sp]

/-- O ends as the result when it is the destination and is written last, else as the new O if there is one. -/
theorem aluWriteBack_o : (aluWriteBack p w l out s).o =
    if l = .oReg then
      match s.cfg.oWriteOrder with
      | .aLast => out.res
      | .oLast => out.onew.getD out.res
    else out.onew.getD s.o := by
  unfold aluWriteBack
  cases s.cfg.oWriteOrder with
  | aLast => simp only [writeLoc_o, updateO_o]
  | oLast => simp only [writeLoc_o, updateO_o]; split <;> rfl

theorem aluWriteBack_mem : (aluWriteBack p w l out s).mem = storeAt s.mem l.address out.res := by
  unfold aluWriteBack; split <;> simp [writeLoc_mem]

theorem aluWriteBack_diags : (aluWriteBack p w l out s).diags =
    if l.isLit then s.diags ++ [⟨.writeToLiteral, p, w⟩] else s.diags := by
  unfold aluWriteBack; split <;> simp [writeLoc_diags]

end WriteBack

/-! ## The ALU step (R126) -/

section AluStep
variable (w : Word) (base : Nat) (alu : Word → Word → AluOut) (a b : Operand) (s : State)

theorem aluStep_reg (q : Reg) : (aluStep w base alu a b s).reg q =
    if (operands a b s).la = .reg q then (alu (operands a b s).va (operands a b s).vb).res else s.reg q := by
  simp only [aluStep, aluWriteBack_reg]; simp

@[simp] theorem aluStep_halted : (aluStep w base alu a b s).halted = s.halted := by simp [aluStep]
@[simp] theorem aluStep_cfg : (aluStep w base alu a b s).cfg = s.cfg := by simp [aluStep]

theorem aluStep_cycles : (aluStep w base alu a b s).cycles =
    s.cycles + base + s.cfg.extraWordCycles * (a.ext + b.ext) := by
  simp [aluStep, operands_after_cycles]; omega

theorem aluStep_pc : (aluStep w base alu a b s).pc =
    if (operands a b s).la = .pcReg then (alu (operands a b s).va (operands a b s).vb).res
    else s.pc + BitVec.ofNat 16 (a.ext + b.ext) := by
  simp [aluStep, aluWriteBack_pc, operands_after_pc]

theorem aluStep_sp : (aluStep w base alu a b s).sp =
    if (operands a b s).la = .spReg then (alu (operands a b s).va (operands a b s).vb).res
    else s.sp + spDelta a + spDelta b := by
  simp [aluStep, aluWriteBack_sp, operands_after_sp]

theorem aluStep_o : (aluStep w base alu a b s).o =
    if (operands a b s).la = .oReg then
      match s.cfg.oWriteOrder with
      | .aLast => (alu (operands a b s).va (operands a b s).vb).res
      | .oLast => (alu (operands a b s).va (operands a b s).vb).onew.getD (alu (operands a b s).va (operands a b s).vb).res
    else (alu (operands a b s).va (operands a b s).vb).onew.getD s.o := by
  simp [aluStep, aluWriteBack_o]

theorem aluStep_mem : (aluStep w base alu a b s).mem =
    storeAt s.mem (operands a b s).la.address (alu (operands a b s).va (operands a b s).vb).res := by
  simp [aluStep, aluWriteBack_mem]

theorem aluStep_diags : (aluStep w base alu a b s).diags =
    if (operands a b s).la.isLit then s.diags ++ [⟨.writeToLiteral, hdrAddrOf s, w⟩] else s.diags := by
  simp [aluStep, aluWriteBack_diags]

theorem aluStep_wf (h : s.mem.wf) : (aluStep w base alu a b s).mem.wf := by
  rw [aluStep_mem]; exact wf_storeAt _ _ h

end AluStep

/-! ## The conditional step (R126, R180) -/

section CondStep
variable (cond : Word → Word → Bool) (a b : Operand) (s : State)

@[simp] theorem condStep_x : (condStep cond a b s).x = s.x := by simp [condStep]
@[simp] theorem condStep_o : (condStep cond a b s).o = s.o := by simp [condStep]
@[simp] theorem condStep_mem : (condStep cond a b s).mem = s.mem := by simp [condStep]
@[simp] theorem condStep_halted : (condStep cond a b s).halted = s.halted := by simp [condStep]
@[simp] theorem condStep_diags : (condStep cond a b s).diags = s.diags := by simp [condStep]
@[simp] theorem condStep_cfg : (condStep cond a b s).cfg = s.cfg := by simp [condStep]
@[simp] theorem condStep_reg (q : Reg) : (condStep cond a b s).reg q = s.reg q := by simp [condStep]

theorem condStep_sp : (condStep cond a b s).sp = s.sp + spDelta a + spDelta b := by
  simp [condStep, operands_after_sp]

theorem condStep_cycles : (condStep cond a b s).cycles =
    s.cycles + 2 + s.cfg.extraWordCycles * (a.ext + b.ext) := by
  simp [condStep, operands_after_cycles]; omega

theorem condStep_pc : (condStep cond a b s).pc =
    s.pc + BitVec.ofNat 16 (a.ext + b.ext) +
      if cond (operands a b s).va (operands a b s).vb then 0#16 else 1#16 := by
  simp only [condStep, condSkip_pc, addCycles_pc, operands_after_pc]; split <;> simp

end CondStep

end Sys2Proof.Machine
end

