-- ==== Sys2Proof/Laws/PerInstr.lean ====
section
/-! SUPPORT. Facts about every instruction as syntax, one lemma per constructor of `Instr`. -/

namespace Sys2Proof.Laws.RoundTrip

/-- Decoding the header word of a well-formed instruction gives the instruction back. -/
def Statement (i : Instr) : Prop := ∀ c : Config, i.wf c = true → decode c (encode i) = i

theorem set (a b : Operand) : Statement (.set a b) := fun _ _ => by simp [encode, decode]
theorem add (a b : Operand) : Statement (.add a b) := fun _ _ => by simp [encode, decode]
theorem sub (a b : Operand) : Statement (.sub a b) := fun _ _ => by simp [encode, decode]
theorem mul (a b : Operand) : Statement (.mul a b) := fun _ _ => by simp [encode, decode]
theorem div (a b : Operand) : Statement (.div a b) := fun _ _ => by simp [encode, decode]
theorem mod (a b : Operand) : Statement (.mod a b) := fun _ _ => by simp [encode, decode]
theorem shl (a b : Operand) : Statement (.shl a b) := fun _ _ => by simp [encode, decode]
theorem shr (a b : Operand) : Statement (.shr a b) := fun _ _ => by simp [encode, decode]
theorem and (a b : Operand) : Statement (.and a b) := fun _ _ => by simp [encode, decode]
theorem bor (a b : Operand) : Statement (.bor a b) := fun _ _ => by simp [encode, decode]
theorem xor (a b : Operand) : Statement (.xor a b) := fun _ _ => by simp [encode, decode]
theorem ife (a b : Operand) : Statement (.ife a b) := fun _ _ => by simp [encode, decode]
theorem ifn (a b : Operand) : Statement (.ifn a b) := fun _ _ => by simp [encode, decode]
theorem ifg (a b : Operand) : Statement (.ifg a b) := fun _ _ => by simp [encode, decode]
theorem ifb (a b : Operand) : Statement (.ifb a b) := fun _ _ => by simp [encode, decode]
theorem jsr (b : Operand) : Statement (.jsr b) := fun _ _ => by simp [encode, decode, decodeNonBasic]

theorem halt (subop : OpField) (b : Operand) : Statement (.halt subop b) := fun c h => by
  simp only [Instr.wf, Bool.and_eq_true, decide_eq_true_eq] at h
  simp [encode, decode, decodeNonBasic, h]

theorem reserved (subop : OpField) (b : Operand) : Statement (.reserved subop b) := fun c h => by
  simp only [Instr.wf, Bool.and_eq_true, decide_eq_true_eq] at h
  simp [encode, decode, decodeNonBasic, h]

end Sys2Proof.Laws.RoundTrip
end

