-- ==== Sys2Proof/Laws/Step.lean ====
section
/-! SUPPORT. What one step can do, said once: the two cases of `step`, and the five shapes of `exec`. -/

namespace Sys2Proof.Machine

/-- A step is nothing at all, or the current instruction run one word further on (R110-R112). -/
theorem step_cases {s t : State} (h : step s = .next t) :
    (s.halted = true ∧ t = s) ∨ (s.halted = false ∧ exec s.current s.incPc = .next t) := by
  unfold step at h
  split at h
  · rename_i hh
    exact .inl ⟨hh, (Host.Outcome.next.inj h).symm⟩
  · rename_i hh
    exact .inr ⟨by simpa using hh, h⟩

/-- The base cost, the operation and the operands of an instruction that writes A. -/
def aluForm (c : Config) : Instr → Option (Nat × (Word → Word → AluOut) × Operand × Operand)
  | .set a b => some (1, aluSet, a, b)
  | .add a b => some (2, aluAdd, a, b)
  | .sub a b => some (2, aluSub, a, b)
  | .mul a b => some (3, aluMul, a, b)
  | .div a b => some (3, aluDiv c.divORule, a, b)
  | .mod a b => some (3, aluMod, a, b)
  | .shl a b => some (2, aluShl c.shiftRule, a, b)
  | .shr a b => some (2, aluShr c.shiftRule c.shrORule, a, b)
  | .and a b => some (1, aluAnd, a, b)
  | .bor a b => some (1, aluBor, a, b)
  | .xor a b => some (1, aluXor, a, b)
  | .ife _ _ | .ifn _ _ | .ifg _ _ | .ifb _ _ | .jsr _ | .halt _ _ | .reserved _ _ => none

/-- The condition and the operands of a conditional. -/
def condForm : Instr → Option ((Word → Word → Bool) × Operand × Operand)
  | .ife a b => some (condIfe, a, b)
  | .ifn a b => some (condIfn, a, b)
  | .ifg a b => some (condIfg, a, b)
  | .ifb a b => some (condIfb, a, b)
  | .set _ _ | .add _ _ | .sub _ _ | .mul _ _ | .div _ _ | .mod _ _ | .shl _ _ | .shr _ _
  | .and _ _ | .bor _ _ | .xor _ _ | .jsr _ | .halt _ _ | .reserved _ _ => none

theorem exec_aluForm {i : Instr} {s : State} {base : Nat} {alu : Word → Word → AluOut} {a b : Operand}
    (h : aluForm s.cfg i = some (base, alu, a, b)) : exec i s = .next (aluStep (encode i) base alu a b s) := by
  cases i <;> simp only [aluForm, Option.some.injEq, Prod.mk.injEq, reduceCtorEq] at h <;>
    obtain ⟨rfl, rfl, rfl, rfl⟩ := h <;> rfl

theorem exec_condForm {i : Instr} {s : State} {cond : Word → Word → Bool} {a b : Operand}
    (h : condForm i = some (cond, a, b)) : exec i s = .next (condStep cond a b s) := by
  cases i <;> simp only [condForm, Option.some.injEq, Prod.mk.injEq, reduceCtorEq] at h <;>
    obtain ⟨rfl, rfl, rfl⟩ := h <;> rfl

/-- JSR with its operand resolved (R190). -/
theorem exec_jsr (b : Operand) (s : State) : exec (.jsr b) s =
    .next ((((resolve b s).2.pushWord (resolve b s).2.pc).setPc (readLoc (resolve b s).1 (resolve b s).2)).addCycles
      s.cfg.jsrCycles) := by
  simp only [exec, execJsr, nonBasicOperand_jsr]

/-- The shapes of `exec`: an instruction that writes A, a conditional, or one of the three non-basic forms. -/
theorem exec_shapes (i : Instr) (s : State) :
    (∃ base alu a b, aluForm s.cfg i = some (base, alu, a, b)) ∨ (∃ cond a b, condForm i = some (cond, a, b)) ∨
      (∃ b, i = .jsr b) ∨ (∃ subop b, i = .halt subop b) ∨ (∃ subop b, i = .reserved subop b) := by
  cases i with
  | jsr b => exact .inr (.inr (.inl ⟨b, rfl⟩))
  | halt subop b => exact .inr (.inr (.inr (.inl ⟨subop, b, rfl⟩)))
  | reserved subop b => exact .inr (.inr (.inr (.inr ⟨subop, b, rfl⟩)))
  | ife a b => exact .inr (.inl ⟨_, _, _, rfl⟩)
  | ifn a b => exact .inr (.inl ⟨_, _, _, rfl⟩)
  | ifg a b => exact .inr (.inl ⟨_, _, _, rfl⟩)
  | ifb a b => exact .inr (.inl ⟨_, _, _, rfl⟩)
  | _ => exact .inl ⟨_, _, _, _, rfl⟩

end Sys2Proof.Machine
end

