-- ==== Sys2Proof/Tests/Slice0.lean ====
section
/-! SUPPORT. The model's own tests. Expected values are those of spec/95_test_vectors.md (V<n>, L1-<n>) and of the corner cases
of the rules; words are written out from the encodings of spec/opcode_table.json. After the tests, a witness for the
hypotheses of every statement that has some. -/

open Sys2Proof Sys2Proof.Machine

namespace Sys2Proof.Tests

/-! ## Small states -/

/-- `s` with the words stored from its pc on. -/
def putWords (s : State) (ws : List Word) : State :=
  ws.zipIdx.foldl (fun t p => t.writeMem (s.pc + BitVec.ofNat 16 p.2) p.1) s

/-- The reset state with A and B set and the words stored at address 0. -/
def start (a b : Word) (ws : List Word) : State := putWords ((State.reset.setReg .A a).setReg .B b) ws

/-- The state after one step. -/
def after (s : State) : State :=
  match step s with
  | .next t => t
  | .fault _ => s
  | .refused _ => s

/-- The configuration of the vectors that halt (V80). -/
def haltConfig : Config := { defaultConfig with haltSubop := some 0x02#6 }

/-! ## WellFormed refuses what is ill-formed, and accepts what is not -/

theorem test_wf_refuses_halt_of_another_subop : (Instr.halt 0x03#6 (.reg .A)).wf haltConfig = false := by decide
theorem test_wf_refuses_halt_without_halt_subop : (Instr.halt 0x02#6 (.reg .A)).wf defaultConfig = false := by decide
theorem test_wf_refuses_halt_of_subop_one :
    (Instr.halt 0x01#6 (.reg .A)).wf { defaultConfig with haltSubop := some 0x01#6 } = false := by decide
theorem test_wf_refuses_reserved_of_halt_subop : (Instr.reserved 0x02#6 (.reg .A)).wf haltConfig = false := by decide
theorem test_wf_refuses_reserved_of_subop_one : (Instr.reserved 0x01#6 (.reg .A)).wf defaultConfig = false := by decide
theorem test_config_wf_refuses_halt_subop_one : ¬ ({ defaultConfig with haltSubop := some 0x01#6 } : Config).wf := by
  decide
theorem test_memory_wf_refuses_disorder_repeats_zeros_and_far_cells :
    ¬ Memory.wf [(3, 1#8), (2, 1#8)] ∧ ¬ Memory.wf [(2, 1#8), (2, 5#8)] ∧ ¬ Memory.wf [(2, 0#8)] ∧
    ¬ Memory.wf [(131072, 1#8)] := by decide

/-! ## Decoding: one word for each row of the table, `bbbbbbaaaaaaoooo`, most significant bit first -/

theorem test_decode_set : decode defaultConfig 0b0000010000000001#16 = .set (.reg .A) (.reg .B) := by decide
theorem test_decode_add : decode defaultConfig 0b0111010000010010#16 = .add (.reg .B) .o := by decide
theorem test_decode_sub : decode defaultConfig 0b0010000000100011#16 = .sub (.reg .C) (.ind .A) := by decide
theorem test_decode_mul : decode defaultConfig 0b0001001000110100#16 = .mul (.lit 3#5) (.reg .Y) := by decide
theorem test_decode_div : decode defaultConfig 0b0111100101110101#16 = .div (.indNext .J) .memNext := by decide
theorem test_decode_mod : decode defaultConfig 0b0110000110010110#16 = .mod .peek .pop := by decide
theorem test_decode_shl : decode defaultConfig 0b0110100110110111#16 = .shl .sp .push := by decide
theorem test_decode_shr : decode defaultConfig 0b0111110111001000#16 = .shr .pc .litNext := by decide
theorem test_decode_and : decode defaultConfig 0b1111110001101001#16 = .and (.reg .I) (.lit 31#5) := by decide
theorem test_decode_bor : decode defaultConfig 0b0000110001001010#16 = .bor (.reg .Y) (.reg .X) := by decide
theorem test_decode_xor : decode defaultConfig 0b0101110101011011#16 = .xor (.indNext .Z) (.indNext .J) := by decide
theorem test_decode_ife : decode defaultConfig 0b1000000110001100#16 = .ife .pop (.lit 0#5) := by decide
theorem test_decode_ifn : decode defaultConfig 0b1000110001101101#16 = .ifn (.reg .I) (.lit 3#5) := by decide
theorem test_decode_ifg : decode defaultConfig 0b0011110010001110#16 = .ifg (.ind .A) (.ind .J) := by decide
theorem test_decode_ifb : decode defaultConfig 0b0000011111111111#16 = .ifb (.lit 31#5) (.reg .B) := by decide
theorem test_decode_jsr : decode defaultConfig 0b0111110000010000#16 = .jsr .litNext := by decide
theorem test_decode_halt : decode haltConfig 0b0001110000100000#16 = .halt 0x02#6 (.reg .J) := by decide
theorem test_decode_reserved :
    decode haltConfig 0b0110000000000000#16 = .reserved 0x00#6 .pop ∧
    decode defaultConfig 0b0001110000100000#16 = .reserved 0x02#6 (.reg .J) := by decide

/-- The host's two entries agree with the decoder and the step on a word of two words, operand word 0 (L1-4). -/
theorem test_table_word :
    decodeTableWord 16 0x7DC1 = some (.set .pc .litNext) ∧
    (after (State.reset.withFetchWord 16 0x7DC1)).pc = 0#16 ∧
    (after (State.reset.withFetchWord 32 0x12347C01)).reg .A = 0x1234#16 := by decide

/-! ## Instructions that write A -/

/-- V57: both stack forms, A resolved before B. -/
theorem test_set_peek_push :
    let t := after (putWords ((((State.reset.setSp 0x1000#16).writeMem 0x0FFF#16 0xAAAA#16)).writeMem 0x1000#16 0xBBBB#16)
      [0x6991#16])
    t.sp = 0x0FFF#16 ∧ t.readMem 0x1000#16 = 0xAAAA#16 ∧ t.pc = 1#16 ∧ t.cycles = 1 := by decide

/-- V59: operand A is read after operand B is resolved. -/
theorem test_add_sp_pop_reads_sp_after_pop :
    let t := after (putWords ((State.reset.setSp 0x1000#16).writeMem 0x1000#16 0x10#16) [0x61B2#16])
    t.sp = 0x1011#16 ∧ t.o = 0#16 ∧ t.pc = 1#16 ∧ t.cycles = 2 := by decide

/-- V12: PC is read after A's extra word. -/
theorem test_set_reads_pc_after_extra_word :
    let t := after (start 0#16 0#16 [0x71E1#16, 0x1000#16])
    t.readMem 0x1000#16 = 2#16 ∧ t.pc = 2#16 ∧ t.cycles = 2 := by decide

/-- V22, L1-6. -/
theorem test_add_carry :
    let t := after (start 0xFFFF#16 2#16 [0x0402#16])
    t.reg .A = 1#16 ∧ t.o = 1#16 ∧ t.pc = 1#16 ∧ t.cycles = 2 := by decide

/-- V27 and V28: O as the destination, under each write order. -/
theorem test_add_to_o :
    (after ((start 0#16 0#16 [0x85D2#16]).setO 0xFFFF#16)).o = 0#16 ∧
    (after { (start 0#16 0#16 [0x85D2#16]).setO 0xFFFF#16 with
      cfg := { defaultConfig with oWriteOrder := .oLast } }).o = 1#16 := by decide

/-- V29. -/
theorem test_sub_borrow :
    let t := after (start 0#16 1#16 [0x0403#16])
    t.reg .A = 0xFFFF#16 ∧ t.o = 0xFFFF#16 ∧ t.cycles = 2 := by decide

/-- V32: A is source and destination. -/
theorem test_sub_self :
    let t := after ((start 0x1234#16 0#16 [0x0003#16]).setO 7#16)
    t.reg .A = 0#16 ∧ t.o = 0#16 := by decide

/-- V33. -/
theorem test_mul_largest :
    let t := after (start 0xFFFF#16 0xFFFF#16 [0x0404#16])
    t.reg .A = 1#16 ∧ t.o = 0xFFFE#16 ∧ t.cycles = 3 := by decide

/-- Program P4, step 2: a literal destination, O still written (R185). -/
theorem test_mul_literal_destination :
    let t := after ((start 0#16 0#16 [0x1234#16]).setReg .Y 5#16)
    t.o = 0#16 ∧ t.diags = [⟨.writeToLiteral, 0#16, 0x1234#16⟩] ∧ t.pc = 1#16 ∧ t.cycles = 3 := by decide

/-- V38. -/
theorem test_div_by_zero :
    let t := after ((start 0x1234#16 0#16 [0x0405#16]).setO 0x5555#16)
    t.reg .A = 0#16 ∧ t.o = 0#16 ∧ t.diags = [] := by decide

/-- V39, under both settings of `DIV_O_RULE`. -/
theorem test_div_o_rules :
    let s := (start 7#16 2#16 [0x0405#16]).setO 0x5555#16
    (after s).reg .A = 3#16 ∧ (after s).o = 0#16 ∧
    (after { s with cfg := { defaultConfig with divORule := .fraction } }).o = 0x8000#16 := by decide

/-- V41. -/
theorem test_mod : (after ((start 100#16 7#16 [0x0406#16]).setO 0x1234#16)).reg .A = 2#16 := by decide

/-- V42 (C2). -/
theorem test_mod_by_zero_keeps_o :
    let t := after ((start 0x1234#16 0#16 [0x0406#16]).setO 0x1234#16)
    t.reg .A = 0#16 ∧ t.o = 0x1234#16 := by decide

/-- V47. -/
theorem test_shl_by_twenty :
    let t := after (start 0x8001#16 20#16 [0x0407#16])
    t.reg .A = 0#16 ∧ t.o = 0x10#16 := by decide

/-- V48, under both settings of `SHIFT_RULE`. -/
theorem test_shl_by_thirty_two :
    let s := (start 0x8001#16 32#16 [0x0407#16]).setO 0x1111#16
    (after s).reg .A = 0#16 ∧ (after s).o = 0#16 ∧
    (after { s with cfg := { defaultConfig with shiftRule := .mod32 } }).reg .A = 0x8001#16 := by decide

/-- V49, under both settings of `SHR_O_RULE`. -/
theorem test_shr_o_rules :
    let s := (start 0x8001#16 1#16 [0x0408#16]).setO 0x1111#16
    (after s).reg .A = 0x4000#16 ∧ (after s).o = 0#16 ∧
    (after { s with cfg := { defaultConfig with shrORule := .fraction } }).o = 0x8000#16 := by decide

/-- V50: a shift by 16. -/
theorem test_shr_by_sixteen :
    let s := start 0x8001#16 16#16 [0x0408#16]
    (after s).reg .A = 0#16 ∧
    (after { s with cfg := { defaultConfig with shrORule := .fraction } }).o = 0x8001#16 := by decide

/-- V52. -/
theorem test_and :
    let t := after ((start 0xF0F0#16 0x3C3C#16 [0x0409#16]).setO 0x1111#16)
    t.reg .A = 0x3030#16 ∧ t.o = 0x1111#16 ∧ t.cycles = 1 := by decide

/-- V53. -/
theorem test_bor : (after (start 0xF0F0#16 0x3C3C#16 [0x040A#16])).reg .A = 0xFCFC#16 := by decide

/-- V54. -/
theorem test_xor : (after (start 0xF0F0#16 0x3C3C#16 [0x040B#16])).reg .A = 0xCCCC#16 := by decide

/-! ## Conditionals -/

/-- V61: one word is skipped. -/
theorem test_ife_false :
    let t := after (start 5#16 6#16 [0x040C#16])
    t.pc = 2#16 ∧ t.cycles = 2 := by decide

/-- V70: the operand's side effect happens on either outcome. -/
theorem test_ife_pop :
    let t := after (putWords ((State.reset.setSp 0x1000#16).writeMem 0x1000#16 1#16) [0x818C#16])
    t.sp = 0x1001#16 ∧ t.pc = 2#16 := by decide

/-- V63 and V64. -/
theorem test_ifn :
    (after (start 1#16 2#16 [0x040D#16])).pc = 1#16 ∧ (after (start 0x1234#16 0#16 [0x000D#16])).pc = 2#16 := by decide

/-- V65, V66 and V67: unsigned, and false of equal values. -/
theorem test_ifg :
    (after (start 0x8000#16 0x7FFF#16 [0x040E#16])).pc = 1#16 ∧ (after (start 1#16 0xFFFF#16 [0x040E#16])).pc = 2#16 ∧
    (after (start 5#16 5#16 [0x040E#16])).pc = 2#16 := by decide

/-- V68 and V69. -/
theorem test_ifb :
    (after (start 0xF0#16 0xF00#16 [0x040F#16])).pc = 2#16 ∧ (after (start 0xF0#16 0x110#16 [0x040F#16])).pc = 1#16 := by
  decide

/-! ## Non-basic instructions -/

/-- V73. -/
theorem test_jsr :
    let t := after (start 0#16 0#16 [0x7C10#16, 3#16])
    t.sp = 0xFFFF#16 ∧ t.readMem 0xFFFF#16 = 2#16 ∧ t.pc = 3#16 ∧ t.cycles = 3 := by decide

/-- V76: the target is read before the push into the same slot. -/
theorem test_jsr_pop :
    let t := after (putWords ((State.reset.setSp 0x1000#16).writeMem 0x1000#16 0x40#16) [0x6010#16])
    t.sp = 0x1000#16 ∧ t.readMem 0x1000#16 = 1#16 ∧ t.pc = 0x40#16 := by decide

/-- V80. -/
theorem test_halt :
    let t := after { start 0#16 0#16 [0x0020#16] with cfg := haltConfig }
    t.halted = true ∧ t.pc = 1#16 ∧ t.cycles = 0 ∧ t.diags = [] := by decide

/-- V85: B's extra word is consumed. -/
theorem test_reserved_with_extra_word :
    let t := after (start 0#16 0#16 [0x7FF0#16, 0x1234#16])
    t.pc = 2#16 ∧ t.cycles = 1 ∧ t.diags = [⟨.invalidNonBasicSubOpcode, 0#16, 0x7FF0#16⟩] := by decide

/-- V86 and V87: field A under each setting of `NONBASIC_A_RESOLVED`. -/
theorem test_reserved_field_a :
    let s := start 0#16 0#16 [0x01F0#16, 0x1234#16]
    (after s).pc = 1#16 ∧ (after { s with cfg := { defaultConfig with nonbasicAResolved := true } }).pc = 2#16 := by
  decide

/-! ## Operand forms that no test above resolves -/

/-- V04: the sum wraps. -/
theorem test_resolve_register_plus_next :
    (resolve (.indNext .B) (start 0#16 0xFFFF#16 [5#16])).1 = .mem 4#16 := by decide

/-- V06 and V09: POP and PUSH wrap. -/
theorem test_resolve_stack_wraps :
    (resolve .pop (State.reset.setSp 0xFFFF#16)).1 = .mem 0xFFFF#16 ∧
    (resolve .pop (State.reset.setSp 0xFFFF#16)).2.sp = 0#16 ∧
    (resolve .push State.reset).1 = .mem 0xFFFF#16 ∧ (resolve .push State.reset).2.sp = 0xFFFF#16 := by decide

/-! ## Memory, ROM text and assembler -/

/-- Writing the value an unlisted word reads as takes its cells out; the cells stay in order. -/
theorem test_memory_canonical :
    ((State.reset.writeMem 5#16 0x1234#16).writeMem 2#16 0x00FF#16).mem = [(5, 0xFF#8), (10, 0x12#8), (11, 0x34#8)] ∧
    ((State.reset.writeMem 5#16 0x1234#16).writeMem 5#16 0#16).mem = [] := by decide

/-- L1-9. -/
theorem test_rom_text :
    parseRom ([openBrace, openBrace] ++ "7c01 0030".toList ++ [closeBrace, closeBrace]) = .ok [0x7C01#16, 0x30#16] := by
  decide
theorem test_rom_text_odd_digits :
    parseRom ([openBrace, openBrace] ++ "7c01 003".toList ++ [closeBrace, closeBrace]) = .error .romFormatError := by
  decide
theorem test_rom_text_misordered :
    parseRom ([closeBrace, closeBrace] ++ " 7c01 ".toList ++ [openBrace, openBrace]) = .error .romFormatError := by
  decide

/-- L1-1. -/
theorem test_parse_num :
    parseNum "0x1F".toList = .ok 0x1F#16 ∧ parseNum "65535".toList = .ok 0xFFFF#16 ∧
    parseNum "65536".toList = .error .constantTooLarge ∧ parseNum "0x10000".toList = .error .constantTooLarge ∧
    parseNum "abc".toList = .error .invalidNumber := by decide

/-- L1-4: labels always take an extra word. -/
theorem test_assemble_label :
    assemble "loop: SET A, 1 \n SET PC, loop".toList = .ok [0x8401#16, 0x7DC1#16, 0#16] := by decide

/-- L1-5. -/
theorem test_assemble_embedded :
    assemble "SET A, 0x05\nSET A, 0x20\nSET A, 0x1F".toList = .ok [0x9401#16, 0x7C01#16, 0x20#16, 0xFC01#16] := by decide

/-- Programs P2 and P3: JSR to a label, `[0x1000+I]`, comments. -/
theorem test_assemble_programs :
    assemble "JSR sub\nSET PC, 2 ; end\nsub: SET A, 0x10\n SET PC, POP".toList =
      .ok [0x7C10#16, 3#16, 0x89C1#16, 0xC001#16, 0x61C1#16] ∧
    assemble "SET [0x1000+I], I".toList = .ok [0x1961#16, 0x1000#16] := by decide

/-- L1-8. -/
theorem test_assemble_error : assemble "SET A, 1\nFOO A, 1".toList = .error (2, .invalidOpcode) := by decide

/-! ## Witnesses: states and operands that meet the hypotheses of the statements -/

/-- A HALT and a reserved form are well-formed, and so is every other form. -/
theorem witness_DecodingTheEncodingGivesTheInstructionBack :
    (Instr.halt 0x02#6 (.reg .A)).wf haltConfig = true ∧ (Instr.reserved 0x00#6 .pop).wf haltConfig = true ∧
    (Instr.set .pop (.lit 31#5)).wf haltConfig = true := by decide

theorem witness_WorkedEncodingsDecode : defaultConfig.haltSubop ≠ some 0x00#6 := by decide

theorem witness_StepRunsTheDecodedInstruction :
    let s := start 1#16 2#16 [0x0402#16]
    s.halted = false ∧ (Instr.add (.reg .A) (.reg .B)).wf s.cfg = true ∧
    s.readMem s.pc = encode (.add (.reg .A) (.reg .B)) := by decide

theorem witness_HaltedStepChangesNothing : (start 0#16 0#16 []).halt.halted = true := by decide

theorem witness_EveryStepKeepsTheInvariant : (start 1#16 2#16 [0x0402#16]).Inv := by decide

/-- The step of the witness states below is a next state. -/
theorem witness_step (s : State) (h : step s = .next (after s)) : ∃ t, step s = .next t := ⟨_, h⟩

theorem witness_NoStepChangesTheConfiguration : ∃ t, step (start 1#16 2#16 [0x0402#16]) = .next t :=
  witness_step _ rfl

/-- A step that halts and one that does not. -/
theorem witness_OnlyTheHaltSubOpcodeHalts :
    (∃ t, step { start 0#16 0#16 [0x0020#16] with cfg := haltConfig } = .next t ∧ t.halted = true) ∧
    (∃ t, step (start 0#16 0#16 [0x0020#16]) = .next t ∧ t.halted = false) := ⟨⟨_, rfl, rfl⟩, ⟨_, rfl, rfl⟩⟩

/-- Each branch of the cost: JSR, a reserved sub-opcode, and the basic opcodes at both ends. -/
theorem witness_StepCostIsBaseAndSurcharges :
    ∀ w ∈ [0x7C10#16, 0x0000#16, 0x0401#16, 0x040F#16], (start 0#16 0#16 [w]).halted = false ∧
      (start 0#16 0#16 [w]).headerWord = w ∧ step (start 0#16 0#16 [w]) = .next (after (start 0#16 0#16 [w])) := by
  simp only [List.forall_mem_cons, List.not_mem_nil, false_imp_iff, implies_true, and_true]
  exact ⟨⟨by decide, by decide, rfl⟩, ⟨by decide, by decide, rfl⟩, ⟨by decide, by decide, rfl⟩, ⟨by decide, by decide, rfl⟩⟩

/-- Each clause: a literal destination at the first literal field, a reserved sub-opcode, and neither (field A just below the
literals). -/
theorem witness_StepReportsAtMostItsOwnDefect :
    (∃ s t, s = start 0#16 0#16 [0x01F1#16] ∧ s.halted = false ∧ step s = .next t ∧ writesA s.headerWord ∧
      (fieldA s.headerWord).toNat = 0x1F) ∧
    (∃ s t, s = start 0#16 0#16 [0x0000#16] ∧ s.halted = false ∧ step s = .next t ∧ fieldOp s.headerWord = 0x0#4 ∧
      fieldA s.headerWord ≠ 0x01#6 ∧ s.cfg.haltSubop ≠ some (fieldA s.headerWord)) ∧
    (∃ s t, s = start 0#16 0#16 [0x01E1#16] ∧ s.halted = false ∧ step s = .next t ∧
      ¬ (writesA s.headerWord ∧ 0x1F ≤ (fieldA s.headerWord).toNat) ∧ fieldOp s.headerWord ≠ 0x0#4) :=
  ⟨⟨_, _, rfl, rfl, rfl, by unfold writesA; decide, by decide⟩,
    ⟨_, _, rfl, rfl, rfl, by decide, by decide, by decide⟩, ⟨_, _, rfl, rfl, rfl, by unfold writesA; decide, by decide⟩⟩

/-- Each clause, the opcodes at the ends of its range: 0x1, 0xB, 0xC, 0xF and 0x0. -/
theorem witness_StepMovesPastTheInstruction :
    (∀ w ∈ [0x0401#16, 0x040B#16, 0x040C#16, 0x040F#16, 0x0000#16], (start 0#16 0#16 [w]).halted = false ∧
      (start 0#16 0#16 [w]).headerWord = w ∧ step (start 0#16 0#16 [w]) = .next (after (start 0#16 0#16 [w]))) ∧
    ((fieldOp 0x0401#16).toNat = 0x1 ∧ fieldA 0x0401#16 ≠ 0x1C#6) ∧
    ((fieldOp 0x040B#16).toNat = 0xB ∧ fieldA 0x040B#16 ≠ 0x1C#6) ∧ (fieldOp 0x040C#16).toNat = 0xC ∧
    (fieldOp 0x040F#16).toNat = 0xF ∧ (fieldOp 0x0000#16 = 0x0#4 ∧ fieldA 0x0000#16 ≠ 0x01#6) := by
  refine ⟨?_, by decide, by decide, by decide, by decide, by decide⟩
  simp only [List.forall_mem_cons, List.not_mem_nil, false_imp_iff, implies_true, and_true]
  exact ⟨⟨by decide, by decide, rfl⟩, ⟨by decide, by decide, rfl⟩, ⟨by decide, by decide, rfl⟩,
    ⟨by decide, by decide, rfl⟩, ⟨by decide, by decide, rfl⟩⟩

theorem witness_OnlyItsOwnFieldChangesAGeneralRegister :
    ∃ t, step (start 0xFFFF#16 2#16 [0x0402#16]) = .next t ∧ t.reg .A ≠ (start 0xFFFF#16 2#16 [0x0402#16]).reg .A :=
  ⟨_, rfl, by decide⟩

theorem witness_OnlyOWritersChangeO :
    ∃ t, step (start 0xFFFF#16 2#16 [0x0402#16]) = .next t ∧ t.o ≠ (start 0xFFFF#16 2#16 [0x0402#16]).o :=
  ⟨_, rfl, by decide⟩

/-- A store, seen from the cells on both sides of the stored word, and a form that stores nothing. -/
theorem witness_InstructionsStoreOnlyAtTheirAddress :
    (∃ t, exec (.set (.ind .A) (.reg .B)) (start 3#16 7#16 []) = .next t) ∧
    ¬ InStoredWord (storeAddress (.set (.ind .A) (.reg .B)) (start 3#16 7#16 [])) 5 ∧
    ¬ InStoredWord (storeAddress (.set (.ind .A) (.reg .B)) (start 3#16 7#16 [])) 8 ∧
    ¬ InStoredWord (storeAddress (.ife (.ind .A) (.reg .B)) (start 3#16 7#16 [])) 6 := by
  have h : storeAddress (.set (.ind .A) (.reg .B)) (start 3#16 7#16 []) = some 3#16 := by decide
  refine ⟨⟨_, rfl⟩, ?_, ?_, ?_⟩
  · rw [h]; rintro ⟨a, ha, hc⟩; cases ha; revert hc; decide
  · rw [h]; rintro ⟨a, ha, hc⟩; cases ha; revert hc; decide
  · rintro ⟨a, ha, _⟩; cases ha

theorem witness_CyclesAndDiagnosticsAreNeverRead :
    ∃ t, step (start 0#16 0#16 [0x0251#16]) = .next t ∧ t.diags ≠ [] := ⟨_, rfl, by decide⟩

/-- Each of the four conditionals, false of its operands. -/
theorem witness_FalseConditionSkipsExactlyOneWord :
    ((start 5#16 6#16 [0x040C#16]).current = .ife (.reg .A) (.reg .B) ∧
      (operands (.reg .A) (.reg .B) (start 5#16 6#16 [0x040C#16]).incPc).va ≠
      (operands (.reg .A) (.reg .B) (start 5#16 6#16 [0x040C#16]).incPc).vb) ∧
    ((start 5#16 5#16 [0x040D#16]).current = .ifn (.reg .A) (.reg .B) ∧
      (operands (.reg .A) (.reg .B) (start 5#16 5#16 [0x040D#16]).incPc).va =
      (operands (.reg .A) (.reg .B) (start 5#16 5#16 [0x040D#16]).incPc).vb) ∧
    ((start 5#16 5#16 [0x040E#16]).current = .ifg (.reg .A) (.reg .B) ∧
      (operands (.reg .A) (.reg .B) (start 5#16 5#16 [0x040E#16]).incPc).va.toNat ≤
      (operands (.reg .A) (.reg .B) (start 5#16 5#16 [0x040E#16]).incPc).vb.toNat) ∧
    ((start 1#16 2#16 [0x040F#16]).current = .ifb (.reg .A) (.reg .B) ∧
      (operands (.reg .A) (.reg .B) (start 1#16 2#16 [0x040F#16]).incPc).va &&&
      (operands (.reg .A) (.reg .B) (start 1#16 2#16 [0x040F#16]).incPc).vb = 0#16) := by decide

/-- A call whose target holds the return (program P2). -/
theorem witness_ReturnUndoesCall :
    let s := start 0#16 0#16 [0x7C10#16, 3#16, 0#16, 0x61C1#16]
    s.halted = false ∧ s.current = .jsr .litNext ∧ (after s).headerWord = 0x61C1#16 := by decide

/-- The two ends of the embedded literals. -/
theorem witness_EmbeddedLiteralFieldsResolve :
    0x20 ≤ (0x20#6 : OpField).toNat ∧ 0x20 ≤ (0x3F#6 : OpField).toNat := by decide

theorem witness_LocationsReadWhatWasWritten :
    (Loc.mem 0#16).isLit = false ∧ Loc.mem 1#16 ≠ Loc.mem 0#16 ∧ (Loc.lit 0#16).isLit = true := by decide

/-- A destination of each kind: a register, memory, SP, PC, O and a literal. -/
theorem witness_AluInstructionsFrame :
    Instr.mod (.reg .A) (.reg .B) ∈ aluInstrs (.reg .A) (.reg .B) ∧
    (∃ t, exec (.mod (.reg .A) (.reg .B)) (start 9#16 4#16 []) = .next t) ∧
    Instr.mod (.reg .A) (.reg .B) ∈
      [.set (.reg .A) (.reg .B), .mod (.reg .A) (.reg .B), .and (.reg .A) (.reg .B), .bor (.reg .A) (.reg .B),
        .xor (.reg .A) (.reg .B)] ∧
    (operands (.reg .A) (.reg .B) State.reset).la = .reg .A ∧ (operands .push (.reg .B) State.reset).la = .mem 0xFFFF#16 ∧
    (operands .sp (.reg .B) State.reset).la = .spReg ∧ (operands .pc (.reg .B) State.reset).la = .pcReg ∧
    (operands .o (.reg .B) State.reset).la = .oReg ∧ (operands (.lit 0#5) (.reg .B) State.reset).la.isLit = true :=
  ⟨by decide, ⟨_, rfl⟩, by decide, by decide, by decide, by decide, by decide, by decide, by decide⟩

theorem witness_SelfCopyLeavesMemory : (start 3#16 7#16 [0x2101#16, 0x1234#16]).mem.wf := by decide

/-- Operand values of which each condition holds, and of which it does not. -/
theorem witness_conditions :
    (let r := operands (.reg .A) (.reg .B) (start 5#16 5#16 []); r.va = r.vb ∧ ¬ r.vb.toNat < r.va.toNat) ∧
    (let r := operands (.reg .A) (.reg .B) (start 6#16 5#16 []); r.va ≠ r.vb ∧ r.vb.toNat < r.va.toNat) ∧
    (let r := operands (.reg .A) (.reg .B) (start 1#16 3#16 []); r.va.getLsbD 0 = true ∧ r.vb.getLsbD 0 = true) ∧
    (let r := operands (.reg .A) (.reg .B) (start 1#16 2#16 []); r.va &&& r.vb = 0#16) := by decide

theorem witness_CanonicalMemoriesThatReadAlikeAreEqual : Memory.wf [(10, 0x12#8), (11, 0x34#8)] := by decide

/-- An image of the greatest length, and one a word longer. -/
theorem witness_LoadLeavesTheImageFromAddressZero :
    (List.replicate 65536 0#16).length ≤ 65536 ∧ 65536 < (List.replicate 65537 0#16).length ∧ defaultConfig.wf := by
  simp only [List.length_replicate]
  decide

theorem witness_RomErrorsAreExactlyThese :
    parseRom [openBrace, openBrace] = .error .romFormatError ∧ parseRom [closeBrace, closeBrace] = .error .romFormatError ∧
    findMarker openBrace [closeBrace, closeBrace, openBrace, openBrace] = some 2 ∧
    findMarker closeBrace [closeBrace, closeBrace, openBrace, openBrace] = some 0 := by decide

theorem witness_PassTwoEmitsWhatPassOneCounted :
    AsmInstr.emit [(['x', 'y'], 3)] ⟨0x1#4, some (.code (.reg .A) none), .label ['x', 'y']⟩ = .ok [0x7C01#16, 3#16] := by
  decide

theorem witness_RegisterCharactersParse : ∀ r : Reg, ('K', r) ∉ regChars := by
  intro r; cases r <;> decide

end Sys2Proof.Tests
end

section
/-! PROOFS. The header word's fields as numbers and the non-basic format (R70), and the register characters (R89). -/

namespace Sys2Proof

/-! ## The header word -/

theorem fieldOp_toNat (w : Word) : (fieldOp w).toNat = w.toNat % 16 := by
  simp [fieldOp, BitVec.extractLsb'_toNat]

theorem fieldA_toNat (w : Word) : (fieldA w).toNat = w.toNat / 16 % 64 := by
  simp [fieldA, BitVec.extractLsb'_toNat, Nat.shiftRight_eq_div_pow]

/-- Field B reaches the top of the word, so nothing is cut off above it. -/
theorem fieldB_toNat (w : Word) : (fieldB w).toNat = w.toNat / 1024 := by
  have := w.isLt
  simp only [fieldB, BitVec.extractLsb'_toNat, Nat.shiftRight_eq_div_pow]
  omega

/-- What a non-basic header decodes to, in the order of R195. -/
theorem decodeNonBasic_cases (c : Config) (subop : OpField) (b : Operand) :
    (subop = 0x01#6 ∧ decodeNonBasic c subop b = .jsr b) ∨
    (subop ≠ 0x01#6 ∧ c.haltSubop = some subop ∧ decodeNonBasic c subop b = .halt subop b) ∨
    (subop ≠ 0x01#6 ∧ c.haltSubop ≠ some subop ∧ decodeNonBasic c subop b = .reserved subop b) := by
  by_cases hjsr : subop = 0x01#6
  · simp [decodeNonBasic, hjsr]
  · by_cases hhalt : c.haltSubop = some subop <;> simp [decodeNonBasic, hjsr, hhalt]

theorem decode_of_fieldOp_eq_zero {w : Word} (c : Config) (h : fieldOp w = 0x0#4) :
    decode c w = decodeNonBasic c (fieldA w) (Operand.ofField (fieldB w)) := by
  simp [decode, h]

/-- The non-basic instructions come from opcode 0 only: every other opcode of `decode_cases` gives another constructor. -/
theorem fieldOp_eq_zero_of_decode {c : Config} {w : Word} {subop : OpField} {b : Operand}
    (h : decode c w = .jsr b ∨ decode c w = .halt subop b ∨ decode c w = .reserved subop b) : fieldOp w = 0x0#4 := by
  have hcases := decode_cases c w
  obtain h | h | h := h <;> simp only [h, reduceCtorEq, and_false, or_false] at hcases <;> exact hcases.1

/-- Settles O3, from the fields as numbers and the three cases of the non-basic format. -/
theorem headerFieldsStandWhereTheSpecPutsThem : Obligations.HeaderFieldsStandWhereTheSpecPutsThem := by
  refine ⟨header_toNat, fun c w => ⟨fieldOp_toNat w, fieldA_toNat w, fieldB_toNat w, fun hop => ?_, ?_⟩⟩
  · rw [decode_of_fieldOp_eq_zero c hop]
    obtain ⟨hA, hd⟩ | ⟨-, -, hd⟩ | ⟨-, -, hd⟩ :=
      decodeNonBasic_cases c (fieldA w) (Operand.ofField (fieldB w))
    · exact .inl ⟨_, hd, hA⟩
    · exact .inr (.inl ⟨_, hd⟩)
    · exact .inr (.inr ⟨_, hd⟩)
  · rintro (⟨b, hd, -⟩ | ⟨b, hd⟩ | ⟨b, hd⟩)
    · exact fieldOp_eq_zero_of_decode (subop := fieldA w) (.inl hd)
    · exact fieldOp_eq_zero_of_decode (.inr (.inl hd))
    · exact fieldOp_eq_zero_of_decode (.inr (.inr hd))

/-! ## The register characters -/

namespace Machine

/-- The table of R89 is the graph of `regOfChar`. -/
theorem regOfChar_eq_some_iff {ch : Char} {r : Reg} : regOfChar ch = some r ↔ (ch, r) ∈ regChars := by
  constructor
  · intro h
    unfold regOfChar at h
    split_ifs at h <;> cases h <;> simp [regChars, *]
  · intro h
    cases r <;> simp only [regChars, List.mem_cons, List.not_mem_nil, Prod.mk.injEq, reduceCtorEq, and_true, and_false,
      or_false, false_or] at h <;> subst h <;> rfl

theorem parseReg_eq_ok_iff {ch : Char} {r : Reg} : parseReg ch = .ok r ↔ regOfChar ch = some r := by
  cases h : regOfChar ch <;> simp [parseReg, h]

theorem parseReg_of_regOfChar_eq_none {ch : Char} (h : regOfChar ch = none) :
    parseReg ch = .error .invalidRegisterName := by
  simp [parseReg, h]

/-- Settles O58: `parseReg` answers by `regOfChar`, whose graph is the table of R89. -/
theorem registerCharactersParse : Obligations.RegisterCharactersParse := by
  refine ⟨rfl, fun ch => ⟨fun r => parseReg_eq_ok_iff.trans regOfChar_eq_some_iff, fun hnone => ?_⟩⟩
  apply parseReg_of_regOfChar_eq_none
  exact Option.eq_none_iff_forall_ne_some.mpr fun r hr => hnone r (regOfChar_eq_some_iff.mp hr)

end Machine

end Sys2Proof
end

section
/-! PROOFS. The operand fields that resolve with no side effect: registers, the words they point at, SP, PC and O, and the
embedded literals (R113, R118, R121). -/

namespace Sys2Proof

/-! ## The rows of R73 whose operand depends on the field -/

theorem Operand.ofField_reg (r : Reg) : Operand.ofField (BitVec.ofNat 6 r.num) = .reg r := by
  have hfield : BitVec.ofNat 6 r.num = (Operand.reg r).toField := by cases r <;> rfl
  rw [hfield, Operand.ofField_toField]

theorem Operand.ofField_ind (r : Reg) : Operand.ofField (BitVec.ofNat 6 (0x08 + r.num)) = .ind r := by
  have hfield : BitVec.ofNat 6 (0x08 + r.num) = (Operand.ind r).toField := by cases r <;> rfl
  rw [hfield, Operand.ofField_toField]

/-- From 0x20 on every earlier row of the table is passed over. -/
theorem Operand.ofField_of_le {f : OpField} (h : 0x20 ≤ f.toNat) : Operand.ofField f = .lit (f.extractLsb' 0 5) := by
  simp (disch := omega) only [Operand.ofField, if_neg]

/-- The low five bits of a literal field, as a word, are the field less 0x20. -/
theorem setWidth_extractLsb'_of_le {f : OpField} (h : 0x20 ≤ f.toNat) :
    (f.extractLsb' 0 5).setWidth 16 = BitVec.ofNat 16 (f.toNat - 0x20) := by
  have hf := f.isLt
  apply BitVec.eq_of_toNat_eq
  simp only [BitVec.toNat_setWidth, BitVec.extractLsb'_toNat, BitVec.toNat_ofNat, Nat.shiftRight_zero]
  omega

namespace Machine

/-! ## Resolution -/

/-- Settles O21: each field is the one its register form encodes to, and `resolve` leaves the state as it is. -/
theorem registerFieldsResolve : Obligations.RegisterFieldsResolve := by
  intro r s
  constructor
  · rw [Operand.ofField_reg, resolve]
  · rw [Operand.ofField_ind, resolve]

/-- Settles O24: the three fields are fixed rows of the table of R73. -/
theorem specialRegisterFieldsResolve : Obligations.SpecialRegisterFieldsResolve :=
  fun _ => ⟨rfl, rfl, rfl⟩

/-- Settles O26: the field selects its low five bits, which are the field less 0x20. -/
theorem embeddedLiteralFieldsResolve : Obligations.EmbeddedLiteralFieldsResolve := by
  intro f s hf
  rw [Operand.ofField_of_le hf, resolve, setWidth_extractLsb'_of_le hf]

end Machine

end Sys2Proof
end

section
/-! PROOFS. When reading a ROM text fails (R232, R233): the markers are missing or misordered, or the hex digits between them
make no whole number of words. -/

namespace Sys2Proof.Machine

/-- Digits are taken four at a time, so only what is left over after the last whole word is an error. -/
theorem groupDigits_eq_none_iff (ds : List Nat) : groupDigits ds = none ↔ ds.length % 4 ≠ 0 := by
  induction ds using groupDigits.induct with
  | case1 => simp [groupDigits]
  | case2 d₃ d₂ d₁ d₀ rest ih =>
    rw [groupDigits, Option.map_eq_none_iff, ih]
    simp only [List.length_cons]
    omega
  | case3 ds hnil hfour =>
    match ds with
    | [] => exact absurd rfl hnil
    | [_] | [_, _] | [_, _, _] => simp [groupDigits]
    | _ :: _ :: _ :: _ :: _ => exact absurd rfl (hfour _ _ _ _ _)

theorem parseRom_of_findMarker_eq_none {text : List Char}
    (h : findMarker openBrace text = none ∨ findMarker closeBrace text = none) :
    parseRom text = .error .romFormatError := by
  obtain h | h := h <;> simp [parseRom, h]

/-- With both markers present, the error is their order or the number of digits between them. -/
theorem parseRom_eq_error_iff_of_findMarker {text : List Char} {i j : Nat}
    (hi : findMarker openBrace text = some i) (hj : findMarker closeBrace text = some j) :
    parseRom text = .error .romFormatError ↔
      j < i ∨ (((text.drop (i + 2)).take (j - (i + 2))).filterMap hexValue).length % 4 ≠ 0 := by
  rw [← groupDigits_eq_none_iff]
  simp only [parseRom, hi, hj]
  by_cases horder : j < i
  · simp [horder]
  · cases hwords : groupDigits (((text.drop (i + 2)).take (j - (i + 2))).filterMap hexValue) <;> simp [horder]

theorem bootRom_of_parseRom_error {text : List Char} {e : LoadError} (c : Config) (p : ResetParams)
    (h : parseRom text = .error e) : bootRom c p (some text) = .error e := by
  simp only [bootRom, h, Except.bind]

/-- Settles O55, by whether each of the two markers is found. -/
theorem romErrorsAreExactlyThese : Obligations.RomErrorsAreExactlyThese := by
  intro c p text
  refine ⟨?_, bootRom_of_parseRom_error c p, rfl⟩
  cases hi : findMarker openBrace text with
  | none => simp [parseRom_of_findMarker_eq_none (.inl hi)]
  | some i =>
    cases hj : findMarker closeBrace text with
    | none => simp [parseRom_of_findMarker_eq_none (.inr hj)]
    | some j =>
      rw [parseRom_eq_error_iff_of_findMarker hi hj]
      simp

end Sys2Proof.Machine
end

section
/-! PROOFS. Encoding and decoding are inverse to each other (R70, R80), and the fixed tables of operand fields and
worked words (R73, R83). -/

namespace Sys2Proof

/-- The round trips of the single instructions, put together. -/
theorem decode_encode {c : Config} {i : Instr} (h : i.wf c = true) : decode c (encode i) = i := by
  cases i with
  | set a b => exact Laws.RoundTrip.set a b c h
  | add a b => exact Laws.RoundTrip.add a b c h
  | sub a b => exact Laws.RoundTrip.sub a b c h
  | mul a b => exact Laws.RoundTrip.mul a b c h
  | div a b => exact Laws.RoundTrip.div a b c h
  | mod a b => exact Laws.RoundTrip.mod a b c h
  | shl a b => exact Laws.RoundTrip.shl a b c h
  | shr a b => exact Laws.RoundTrip.shr a b c h
  | and a b => exact Laws.RoundTrip.and a b c h
  | bor a b => exact Laws.RoundTrip.bor a b c h
  | xor a b => exact Laws.RoundTrip.xor a b c h
  | ife a b => exact Laws.RoundTrip.ife a b c h
  | ifn a b => exact Laws.RoundTrip.ifn a b c h
  | ifg a b => exact Laws.RoundTrip.ifg a b c h
  | ifb a b => exact Laws.RoundTrip.ifb a b c h
  | jsr b => exact Laws.RoundTrip.jsr b c h
  | halt subop b => exact Laws.RoundTrip.halt subop b c h
  | reserved subop b => exact Laws.RoundTrip.reserved subop b c h

/-- Settles O1, constructor by constructor. -/
theorem decodingTheEncodingGivesTheInstructionBack : Obligations.DecodingTheEncodingGivesTheInstructionBack :=
  fun _ _ h => decode_encode h

/-- A word is the header of its own fields, whatever the name of its opcode. -/
theorem header_of_fieldOp {w : Word} {op : BitVec 4} (h : fieldOp w = op) : header op (fieldA w) (fieldB w) = w := by
  rw [← h, header_fields]

theorem encode_decodeNonBasic (c : Config) (subop : OpField) (b : Operand) :
    encode (decodeNonBasic c subop b) = header 0x0#4 subop b.toField := by
  obtain ⟨rfl, hd⟩ | ⟨-, -, hd⟩ | ⟨-, -, hd⟩ := decodeNonBasic_cases c subop b <;> rw [hd, encode]

theorem decodeNonBasic_wf (c : Config) (subop : OpField) (b : Operand) : (decodeNonBasic c subop b).wf c = true := by
  obtain ⟨-, hd⟩ | ⟨hjsr, hhalt, hd⟩ | ⟨hjsr, hhalt, hd⟩ := decodeNonBasic_cases c subop b
  · rw [hd, Instr.wf]
  · simp [hd, Instr.wf, hjsr, hhalt]
  · simp [hd, Instr.wf, hjsr, hhalt]

theorem encode_decode (c : Config) (w : Word) : encode (decode c w) = w := by
  have hcases := decode_cases c w
  simp only at hcases
  obtain ⟨hop, hd⟩ | hbasic := hcases
  · rw [hd, encode_decodeNonBasic, Operand.toField_ofField]
    exact header_of_fieldOp hop
  · rcases hbasic with h | h | h | h | h | h | h | h | h | h | h | h | h | h | h <;> obtain ⟨hop, hd⟩ := h <;>
      rw [hd, encode, Operand.toField_ofField, Operand.toField_ofField] <;> exact header_of_fieldOp hop

theorem decode_wf (c : Config) (w : Word) : (decode c w).wf c = true := by
  have hcases := decode_cases c w
  simp only at hcases
  obtain ⟨-, hd⟩ | hbasic := hcases
  · rw [hd, decodeNonBasic_wf]
  · rcases hbasic with h | h | h | h | h | h | h | h | h | h | h | h | h | h | h <;> rw [h.2, Instr.wf]

/-- Settles O2, opcode by opcode; a word of opcode 0 is the header of its sub-opcode. -/
theorem everyWordEncodesAWellFormedInstruction : Obligations.EveryWordEncodesAWellFormedInstruction :=
  fun c w => ⟨encode_decode c w, decode_wf c w⟩

/-! ## Fixed tables -/

theorem Operand.ofField_indNext (r : Reg) : Operand.ofField (BitVec.ofNat 6 (0x10 + r.num)) = .indNext r := by
  have hfield : BitVec.ofNat 6 (0x10 + r.num) = (Operand.indNext r).toField := by cases r <;> rfl
  rw [hfield, Operand.ofField_toField]

theorem Operand.ofField_lit (v : BitVec 5) : Operand.ofField (BitVec.ofNat 6 (0x20 + v.toNat)) = .lit v := by
  have hfield : BitVec.ofNat 6 (0x20 + v.toNat) = (Operand.lit v).toField := by revert v; decide
  rw [hfield, Operand.ofField_toField]

/-- Settles O4: the rows that carry a register or a value by their encodings, the other eight as they stand. -/
theorem operandFieldTable : Obligations.OperandFieldTable :=
  ⟨fun r => ⟨Operand.ofField_reg r, Operand.ofField_ind r, Operand.ofField_indNext r⟩,
    rfl, rfl, rfl, rfl, rfl, rfl, rfl, rfl, Operand.ofField_lit⟩

/-- Settles O5: each word is the encoding of the well-formed instruction it stands for. -/
theorem workedEncodingsDecode : Obligations.WorkedEncodingsDecode := by
  intro c
  refine ⟨decode_encode (i := .set (.reg .A) .litNext) rfl, decode_encode (i := .add (.reg .A) (.reg .B)) rfl,
    decode_encode (i := .ife (.reg .A) (.reg .B)) rfl, decode_encode (i := .set (.reg .A) (.lit 1#5)) rfl,
    decode_encode (i := .set .pc .litNext) rfl, decode_encode (i := .jsr .litNext) rfl,
    decode_encode (i := .jsr (.lit 3#5)) rfl, decode_encode (i := .set .pc .pop) rfl, fun hhalt => ?_⟩
  exact decode_encode (i := .reserved 0x00#6 (.reg .A)) (by simp [Instr.wf, hhalt])

end Sys2Proof
end

section
/-! PROOFS. What a step does, said once in terms of the fields of its header word (R70, R78, R126, R127): the inversion
that the statements about every step use. -/

namespace Sys2Proof

theorem Operand.ofField_eq_iff {f : OpField} {p : Operand} : Operand.ofField f = p ↔ f = p.toField := by
  constructor
  · rintro rfl; exact (Operand.toField_ofField f).symm
  · rintro rfl; exact Operand.ofField_toField p

theorem Operand.toField_reg (r : Reg) : (Operand.reg r).toField = BitVec.ofNat 6 r.num := by
  rw [← Operand.ofField_reg, Operand.toField_ofField]

namespace Machine

/-! ## The destination of an operand form -/

theorem operands_la (a b : Operand) (s : State) : (operands a b s).la = (resolve a s).1 := rfl

theorem operands_la_eq_reg_iff (a b : Operand) (s : State) (q : Reg) : (operands a b s).la = .reg q ↔ a = .reg q := by
  rw [operands_la]; cases a <;> simp [resolve]

theorem operands_la_eq_pcReg_iff (a b : Operand) (s : State) : (operands a b s).la = .pcReg ↔ a = .pc := by
  rw [operands_la]; cases a <;> simp [resolve]

theorem operands_la_eq_oReg_iff (a b : Operand) (s : State) : (operands a b s).la = .oReg ↔ a = .o := by
  rw [operands_la]; cases a <;> simp [resolve]

/-- The literal class is the end of the table of R73: the next word as a literal, then the embedded literals. -/
theorem operands_la_isLit_iff (a b : Operand) (s : State) :
    (operands a b s).la.isLit = true ↔ 0x1F ≤ a.toField.toNat := by
  rw [operands_la]
  cases a with
  | reg r | ind r | indNext r => cases r <;> simp [resolve, Loc.isLit, Operand.toField, Reg.toBits, Reg.num]
  | lit v =>
    have hv : ∀ v : BitVec 5, 0x1F ≤ (Operand.lit v).toField.toNat := by decide
    simp [resolve, Loc.isLit, hv v]
  | pop | peek | push | sp | pc | o | memNext | litNext => simp [resolve, Loc.isLit, Operand.toField]

/-! ## The forms of the decoded instruction -/

/-- The base cost of an opcode (R78, R130). -/
def baseCost (op : BitVec 4) : Nat := [0, 1, 2, 2, 3, 3, 3, 2, 2, 1, 1, 1, 2, 2, 2, 2].getD op.toNat 0

/-- An operation that leaves O as it is (R151). -/
def KeepsO (alu : Word → Word → AluOut) : Prop := ∀ va vb, (alu va vb).onew = none

theorem aluSet_keepsO : KeepsO aluSet := fun _ _ => rfl
theorem aluMod_keepsO : KeepsO aluMod := fun _ _ => by unfold aluMod; split <;> rfl
theorem aluAnd_keepsO : KeepsO aluAnd := fun _ _ => rfl
theorem aluBor_keepsO : KeepsO aluBor := fun _ _ => rfl
theorem aluXor_keepsO : KeepsO aluXor := fun _ _ => rfl

theorem extraWords_of_aluForm {c d : Config} {i : Instr} {base : Nat} {alu : Word → Word → AluOut} {a b : Operand}
    (h : aluForm c i = some (base, alu, a, b)) : i.extraWords d = a.ext + b.ext := by
  cases i <;> simp only [aluForm, Option.some.injEq, Prod.mk.injEq, reduceCtorEq] at h <;>
    obtain ⟨-, -, rfl, rfl⟩ := h <;> rfl

theorem extraWords_of_condForm {c : Config} {i : Instr} {cond : Word → Word → Bool} {a b : Operand}
    (h : condForm i = some (cond, a, b)) : i.extraWords c = a.ext + b.ext := by
  cases i <;> simp only [condForm, Option.some.injEq, Prod.mk.injEq, reduceCtorEq] at h <;>
    obtain ⟨-, rfl, rfl⟩ := h <;> rfl

/-- Opcodes 0x1 to 0xB write A, and those without O in their row of R29 leave it. -/
theorem aluForm_decode (c : Config) {w : Word} (h : writesA w) : ∃ alu,
    aluForm c (decode c w) =
      some (baseCost (fieldOp w), alu, Operand.ofField (fieldA w), Operand.ofField (fieldB w)) ∧
    ((fieldOp w).toNat ∈ [0x2, 0x3, 0x4, 0x5, 0x7, 0x8] ∨ KeepsO alu) := by
  unfold writesA at h
  have hcases := decode_cases c w
  simp only at hcases
  rcases hcases with h' | h' | h' | h' | h' | h' | h' | h' | h' | h' | h' | h' | h' | h' | h' | h' <;>
    obtain ⟨hop, hd⟩ := h' <;> rw [hop] at h ⊢ <;> rw [hd]
  · exact absurd h (by decide)
  · exact ⟨_, rfl, .inr aluSet_keepsO⟩
  · exact ⟨_, rfl, .inl (by decide)⟩
  · exact ⟨_, rfl, .inl (by decide)⟩
  · exact ⟨_, rfl, .inl (by decide)⟩
  · exact ⟨_, rfl, .inl (by decide)⟩
  · exact ⟨_, rfl, .inr aluMod_keepsO⟩
  · exact ⟨_, rfl, .inl (by decide)⟩
  · exact ⟨_, rfl, .inl (by decide)⟩
  · exact ⟨_, rfl, .inr aluAnd_keepsO⟩
  · exact ⟨_, rfl, .inr aluBor_keepsO⟩
  · exact ⟨_, rfl, .inr aluXor_keepsO⟩
  all_goals exact absurd h (by decide)

/-- Opcodes 0xC to 0xF are conditionals, all of base cost 2. -/
theorem condForm_decode (c : Config) {w : Word} (h : 0xC ≤ (fieldOp w).toNat) : baseCost (fieldOp w) = 2 ∧ ∃ cond,
    condForm (decode c w) = some (cond, Operand.ofField (fieldA w), Operand.ofField (fieldB w)) := by
  have hcases := decode_cases c w
  simp only at hcases
  rcases hcases with h' | h' | h' | h' | h' | h' | h' | h' | h' | h' | h' | h' | h' | h' | h' | h' <;>
    obtain ⟨hop, hd⟩ := h' <;> rw [hop] at h ⊢ <;> rw [hd]
  iterate 12 exact absurd h (by decide)
  all_goals exact ⟨rfl, _, rfl⟩

theorem exec_halt (subop : OpField) (b : Operand) (s : State) :
    exec (.halt subop b) s = .next (nonBasicOperand subop b s).2.halt := rfl

theorem exec_reserved (subop : OpField) (b : Operand) (s : State) : exec (.reserved subop b) s =
    .next ((nonBasicOperand subop b s).2.raise .invalidNonBasicSubOpcode (hdrAddrOf s)
      (header 0x0#4 subop b.toField)) := rfl

/-! ## The step by its header word -/

/-- Field A of the header word that `step` would fetch, as an operand form. -/
abbrev State.formA (s : State) : Operand := Operand.ofField (fieldA s.headerWord)

/-- Field B of the header word that `step` would fetch, as an operand form. -/
abbrev State.formB (s : State) : Operand := Operand.ofField (fieldB s.headerWord)

/-- All that a step from a running `s` to `t` can be, by the fields of its header word: the five shapes of R126 and
R127. -/
inductive StepShape (s t : State) : Prop
  /-- An instruction that writes A; the opcode is one of R29's six if the operation touches O. -/
  | alu (alu : Word → Word → AluOut) (hop : writesA s.headerWord)
      (ho : (fieldOp s.headerWord).toNat ∈ [0x2, 0x3, 0x4, 0x5, 0x7, 0x8] ∨ KeepsO alu)
      (hext : s.current.extraWords s.cfg = s.formA.ext + s.formB.ext)
      (ht : t = aluStep s.headerWord (baseCost (fieldOp s.headerWord)) alu s.formA s.formB s.incPc)
  /-- A conditional. -/
  | cond (cond : Word → Word → Bool) (hop : 0xC ≤ (fieldOp s.headerWord).toNat)
      (hext : s.current.extraWords s.cfg = s.formA.ext + s.formB.ext)
      (ht : t = condStep cond s.formA s.formB s.incPc)
  /-- JSR. -/
  | jsr (hop : fieldOp s.headerWord = 0x0#4) (hsub : fieldA s.headerWord = 0x01#6) (hcur : s.current = .jsr s.formB)
      (ht : t = (((resolve s.formB s.incPc).2.pushWord (resolve s.formB s.incPc).2.pc).setPc
        (readLoc (resolve s.formB s.incPc).1 (resolve s.formB s.incPc).2)).addCycles s.cfg.jsrCycles)
  /-- HALT. -/
  | halt (hop : fieldOp s.headerWord = 0x0#4) (hsub : fieldA s.headerWord ≠ 0x01#6)
      (hhalt : s.cfg.haltSubop = some (fieldA s.headerWord)) (hcur : s.current = .halt (fieldA s.headerWord) s.formB)
      (ht : t = (nonBasicOperand (fieldA s.headerWord) s.formB s.incPc).2.halt)
  /-- A reserved sub-opcode. -/
  | reserved (hop : fieldOp s.headerWord = 0x0#4) (hsub : fieldA s.headerWord ≠ 0x01#6)
      (hhalt : s.cfg.haltSubop ≠ some (fieldA s.headerWord))
      (hcur : s.current = .reserved (fieldA s.headerWord) s.formB)
      (ht : t = (nonBasicOperand (fieldA s.headerWord) s.formB s.incPc).2.raise .invalidNonBasicSubOpcode s.pc
        s.headerWord)

theorem opcode_cases (w : Word) : fieldOp w = 0x0#4 ∨ writesA w ∨ 0xC ≤ (fieldOp w).toNat := by
  rw [writesA, ← BitVec.toNat_inj, BitVec.toNat_ofNat]
  omega

/-- The inversion of a running step, from which the statements about every step follow. -/
theorem stepShape {s t : State} (hs : s.halted = false) (h : step s = .next t) : StepShape s t := by
  have hexec : exec s.current s.incPc = .next t := by
    obtain ⟨hh, -⟩ | ⟨-, hexec⟩ := step_cases h
    · simp [hs] at hh
    · exact hexec
  obtain hop | hop | hop := opcode_cases s.headerWord
  · have hcur : s.current = decodeNonBasic s.cfg (fieldA s.headerWord) s.formB := decode_of_fieldOp_eq_zero s.cfg hop
    obtain ⟨hsub, hd⟩ | ⟨hsub, hhalt, hd⟩ | ⟨hsub, hhalt, hd⟩ :=
      decodeNonBasic_cases s.cfg (fieldA s.headerWord) s.formB <;> rw [hd] at hcur <;> rw [hcur] at hexec
    · rw [exec_jsr] at hexec
      exact .jsr hop hsub hcur (Host.Outcome.next.inj hexec).symm
    · exact .halt hop hsub hhalt hcur (Host.Outcome.next.inj hexec).symm
    · rw [exec_reserved, hdrAddrOf_incPc, Operand.toField_ofField, header_of_fieldOp hop] at hexec
      exact .reserved hop hsub hhalt hcur (Host.Outcome.next.inj hexec).symm
  · obtain ⟨alu, hform, ho⟩ := aluForm_decode s.cfg hop
    have ht := (exec_aluForm (s := s.incPc) hform).symm.trans hexec
    rw [encode_decode] at ht
    exact .alu alu hop ho (extraWords_of_aluForm hform) (Host.Outcome.next.inj ht).symm
  · obtain ⟨-, cond, hform⟩ := condForm_decode s.cfg hop
    have ht := (exec_condForm (s := s.incPc) hform).symm.trans hexec
    exact .cond cond hop (extraWords_of_condForm hform) (Host.Outcome.next.inj ht).symm

end Machine
end Sys2Proof
end

section
/-! PROOFS. The statements about every step, each from the five shapes of `stepShape`. -/

namespace Sys2Proof.Machine

/-! ## Opcodes exclude each other -/

theorem not_writesA_of_zero {w : Word} (h : fieldOp w = 0x0#4) : ¬ writesA w := by
  simp [writesA, h]

theorem fieldOp_ne_zero_of_writesA {w : Word} (h : writesA w) : fieldOp w ≠ 0x0#4 := fun h0 =>
  not_writesA_of_zero h0 h

theorem fieldOp_ne_zero_of_le {w : Word} (h : 0xC ≤ (fieldOp w).toNat) : fieldOp w ≠ 0x0#4 := fun h0 => by
  simp [h0] at h

theorem not_writesA_of_le {w : Word} (h : 0xC ≤ (fieldOp w).toNat) : ¬ writesA w := by
  unfold writesA; omega

/-! ## Completion and the invariant -/

theorem exec_completes (i : Instr) (s : State) : ∃ t, exec i s = .next t := by
  obtain ⟨_, _, _, _, h⟩ | ⟨_, _, _, h⟩ | ⟨b, rfl⟩ | ⟨subop, b, rfl⟩ | ⟨subop, b, rfl⟩ := exec_shapes i s
  · exact ⟨_, exec_aluForm h⟩
  · exact ⟨_, exec_condForm h⟩
  · exact ⟨_, exec_jsr b s⟩
  · exact ⟨_, exec_halt subop b s⟩
  · exact ⟨_, exec_reserved subop b s⟩

theorem step_of_running {s : State} (h : s.halted = false) : step s = exec s.current s.incPc := by
  rw [step, h]; rfl

theorem step_of_halted {s : State} (h : s.halted = true) : step s = .next s := by
  rw [step, h]; rfl

/-- Settles O8, by the halt flag: a halted step keeps the state, a running one completes with its instruction. -/
theorem everyStepCompletes : Obligations.EveryStepCompletes := by
  intro s
  cases h : s.halted with
  | true => exact ⟨s, step_of_halted h⟩
  | false => rw [step_of_running h]; exact exec_completes _ _

/-- Settles O7, by the first branch of `step`. -/
theorem haltedStepChangesNothing : Obligations.HaltedStepChangesNothing := fun _ h => step_of_halted h

/-- Settles O6: the word at the pc decodes to the instruction it encodes. -/
theorem stepRunsTheDecodedInstruction : Obligations.StepRunsTheDecodedInstruction := by
  intro s i hs hi hw
  have hcur : s.current = i := by rw [State.current, State.headerWord, hw, decode_encode hi]
  rw [step_of_running hs, hcur]
  rfl

theorem step_cfg {s t : State} (h : step s = .next t) : t.cfg = s.cfg := by
  obtain ⟨-, rfl⟩ | ⟨hs, -⟩ := step_cases h
  · rfl
  · cases stepShape hs h with
    | alu alu hop ho hext ht => simp [ht]
    | cond cond hop hext ht => simp [ht]
    | jsr hop hsub hcur ht => simp [ht]
    | halt hop hsub hhalt hcur ht => simp [ht]
    | reserved hop hsub hhalt hcur ht => simp [ht]

/-- Settles O10: none of the five shapes writes the configuration. -/
theorem noStepChangesTheConfiguration : Obligations.NoStepChangesTheConfiguration := fun _ _ => step_cfg

/-- Only an ALU destination and the push of a JSR touch memory, and both are word writes. -/
theorem step_mem_wf {s t : State} (hwf : s.mem.wf) (h : step s = .next t) : t.mem.wf := by
  obtain ⟨-, rfl⟩ | ⟨hs, -⟩ := step_cases h
  · exact hwf
  · cases stepShape hs h with
    | alu alu hop ho hext ht => rw [ht]; exact aluStep_wf _ _ _ _ _ _ hwf
    | cond cond hop hext ht => simpa [ht] using hwf
    | jsr hop hsub hcur ht => simpa [ht] using wf_writeWord _ _ hwf
    | halt hop hsub hhalt hcur ht => simpa [ht] using hwf
    | reserved hop hsub hhalt hcur ht => simpa [ht] using hwf

/-- Settles O9: a step keeps the canonical form and does not touch the configuration. -/
theorem everyStepKeepsTheInvariant : Obligations.EveryStepKeepsTheInvariant := by
  intro s t ⟨hmem, hcfg⟩ h
  exact ⟨step_mem_wf hmem h, by rwa [step_cfg h]⟩

/-! ## Halting, cost and diagnostics -/

/-- HALT and a reserved form consume the same extra words (R128). -/
theorem extraWords_halt (c : Config) (subop : OpField) (b : Operand) :
    (Instr.halt subop b).extraWords c = (Instr.reserved subop b).extraWords c := rfl

/-- Settles O11: of the five shapes only HALT sets the flag, and the fields of the others contradict its condition. -/
theorem onlyTheHaltSubOpcodeHalts : Obligations.OnlyTheHaltSubOpcodeHalts := by
  intro s t hs h
  cases stepShape hs h with
  | alu alu hop ho hext ht => simp [ht, hs, fieldOp_ne_zero_of_writesA hop]
  | cond cond hop hext ht => simp [ht, hs, fieldOp_ne_zero_of_le hop]
  | jsr hop hsub hcur ht => simp [ht, hs, hsub]
  | halt hop hsub hhalt hcur ht => simp [ht, hop, hsub, hhalt]
  | reserved hop hsub hhalt hcur ht => simp [ht, hs, hhalt]

/-- Settles O12: the base cost comes from the shape's opcode, the surcharge from the resolution of its operands. -/
theorem stepCostIsBaseAndSurcharges : Obligations.StepCostIsBaseAndSurcharges := by
  intro s t hs h
  cases stepShape hs h with
  | alu alu hop ho hext ht =>
    rw [if_neg (fieldOp_ne_zero_of_writesA hop), hext, ht, aluStep_cycles]
    rfl
  | cond cond hop hext ht =>
    have hbase := (condForm_decode s.cfg hop).1
    rw [baseCost] at hbase
    rw [if_neg (fieldOp_ne_zero_of_le hop), hbase, hext, ht, condStep_cycles]
    rfl
  | jsr hop hsub hcur ht =>
    have hcycles : t.cycles = s.cycles + s.cfg.extraWordCycles * s.formB.ext + s.cfg.jsrCycles := by
      simp [ht, resolve_cycles]
    rw [if_pos hop, if_pos hsub, hcur, hcycles, Instr.extraWords]
    omega
  | halt hop hsub hhalt hcur ht => simp [hop, hsub, hcur, ht, nonBasicOperand_cycles, extraWords_halt]
  | reserved hop hsub hhalt hcur ht => simp [hop, hsub, hcur, ht, nonBasicOperand_cycles]

/-- Settles O13: an ALU step reports a literal destination, a reserved form its sub-opcode, no other shape anything. -/
theorem stepReportsAtMostItsOwnDefect : Obligations.StepReportsAtMostItsOwnDefect := by
  intro s t hs h
  cases stepShape hs h with
  | alu alu hop ho hext ht =>
    have hlit := operands_la_isLit_iff s.formA s.formB s.incPc
    rw [Operand.toField_ofField] at hlit
    have hdiags : t.diags = if 0x1F ≤ (fieldA s.headerWord).toNat
        then s.diags ++ [⟨.writeToLiteral, s.pc, s.headerWord⟩] else s.diags := by
      rw [ht, aluStep_diags, hdrAddrOf_incPc, incPc_diags]
      simp only [hlit]
    rw [hdiags]
    exact ⟨fun _ hA => if_pos hA, fun h0 => absurd h0 (fieldOp_ne_zero_of_writesA hop),
      fun hA _ => if_neg fun hA' => hA ⟨hop, hA'⟩⟩
  | cond cond hop hext ht => simp [ht, not_writesA_of_le hop, fieldOp_ne_zero_of_le hop]
  | jsr hop hsub hcur ht => simp [ht, not_writesA_of_zero hop, hsub]
  | halt hop hsub hhalt hcur ht => simp [ht, not_writesA_of_zero hop, hhalt]
  | reserved hop hsub hhalt hcur ht => simp [ht, not_writesA_of_zero hop, hop, hsub, hhalt]

/-! ## The pc, the general registers and O -/

/-- The pc one past the header, moved past `n` extra words, is the old pc moved by the length `1 + n`. -/
theorem incPc_pc_add (s : State) (n : Nat) : s.incPc.pc + BitVec.ofNat 16 n = s.pc + BitVec.ofNat 16 (1 + n) := by
  rw [incPc_pc, BitVec.ofNat_add, BitVec.add_assoc]

/-- Settles O14: resolution moves the pc past the extra words, and only a false condition moves it further. -/
theorem stepMovesPastTheInstruction : Obligations.StepMovesPastTheInstruction := by
  intro s t hs h
  cases stepShape hs h with
  | alu alu hop ho hext ht =>
    refine ⟨fun _ _ hA => ?_, fun hle => absurd hop (not_writesA_of_le hle),
      fun h0 => absurd h0 (fieldOp_ne_zero_of_writesA hop)⟩
    have hla : (operands s.formA s.formB s.incPc).la ≠ .pcReg := by
      rw [Ne, operands_la_eq_pcReg_iff, Operand.ofField_eq_iff]; exact hA
    rw [ht, aluStep_pc, if_neg hla, incPc_pc_add, Instr.length, hext]
  | cond cond hop hext ht =>
    refine ⟨fun h1 h2 => absurd ⟨h1, h2⟩ (not_writesA_of_le hop), fun _ => ?_,
      fun h0 => absurd h0 (fieldOp_ne_zero_of_le hop)⟩
    rw [ht, condStep_pc, incPc_pc_add, Instr.length, hext, BitVec.ofNat_add (1 + _) 1, ← BitVec.add_assoc]
    split
    · exact .inl (BitVec.add_zero _)
    · exact .inr rfl
  | jsr hop hsub hcur ht => simp [hop, hsub]
  | halt hop hsub hhalt hcur ht =>
    have hpc : t.pc = s.pc + BitVec.ofNat 16 (s.current.length s.cfg) := by
      rw [ht, hcur, halt_pc, nonBasicOperand_pc, incPc_pc_add]; rfl
    simp [hop, hpc]
  | reserved hop hsub hhalt hcur ht =>
    have hpc : t.pc = s.pc + BitVec.ofNat 16 (s.current.length s.cfg) := by
      rw [ht, hcur, raise_pc, nonBasicOperand_pc, incPc_pc_add]; rfl
    simp [hop, hpc]

/-- Settles O15: an ALU step changes a register only as its destination, and no other shape changes one. -/
theorem onlyItsOwnFieldChangesAGeneralRegister : Obligations.OnlyItsOwnFieldChangesAGeneralRegister := by
  intro s t q h hne
  obtain ⟨-, rfl⟩ | ⟨hs, -⟩ := step_cases h
  · exact absurd rfl hne
  · cases stepShape hs h with
    | alu alu hop ho hext ht =>
      rw [ht, aluStep_reg] at hne
      have hla := (ite_ne_right_iff.mp hne).1
      rw [operands_la_eq_reg_iff, Operand.ofField_eq_iff, Operand.toField_reg] at hla
      exact ⟨hop, hla⟩
    | cond cond hop hext ht => simp [ht] at hne
    | jsr hop hsub hcur ht => simp [ht] at hne
    | halt hop hsub hhalt hcur ht => simp [ht] at hne
    | reserved hop hsub hhalt hcur ht => simp [ht] at hne

/-- Settles O16: past the destination, an ALU step changes O only by an operation that writes it. -/
theorem onlyOWritersChangeO : Obligations.OnlyOWritersChangeO := by
  intro s t h hne
  obtain ⟨-, rfl⟩ | ⟨hs, -⟩ := step_cases h
  · exact absurd rfl hne
  · cases stepShape hs h with
    | alu alu hop ho hext ht =>
      refine ho.imp_right fun hkeeps => ⟨hop, ?_⟩
      by_contra hA
      have hla : (operands s.formA s.formB s.incPc).la ≠ .oReg := by
        rw [Ne, operands_la_eq_oReg_iff, Operand.ofField_eq_iff]; exact hA
      rw [ht, aluStep_o, if_neg hla, hkeeps] at hne
      exact hne rfl
    | cond cond hop hext ht => simp [ht] at hne
    | jsr hop hsub hcur ht => simp [ht] at hne
    | halt hop hsub hhalt hcur ht => simp [ht] at hne
    | reserved hop hsub hhalt hcur ht => simp [ht] at hne

end Sys2Proof.Machine
end

section
/-! PROOFS. Memory as data (R56, log entry 3), the resolution of operands (R114-R126), and what locations read (R124,
R125). -/

namespace Sys2Proof.Machine

/-! ## States by their fields -/

theorem exists_reg_num_eq (i : Fin 8) : ∃ q : Reg, q.num = i :=
  ⟨Reg.ofBits (BitVec.ofNat 3 i), by revert i; decide⟩

theorem x_eq_of_reg {s t : State} (h : ∀ q, s.reg q = t.reg q) : s.x = t.x := by
  apply Vector.ext
  intro i hi
  obtain ⟨q, hq⟩ := exists_reg_num_eq ⟨i, hi⟩
  simpa [State.reg, hq] using h q

theorem state_eq_of_fields {s t : State} (hx : s.x = t.x) (hpc : s.pc = t.pc) (hsp : s.sp = t.sp)
    (ho : s.o = t.o) (hmem : s.mem = t.mem) (hcycles : s.cycles = t.cycles) (hhalted : s.halted = t.halted)
    (hdiags : s.diags = t.diags) (hcfg : s.cfg = t.cfg) : s = t := by
  cases s; cases t
  simp only at *
  simp only [*]

/-! ## Memory -/

/-- Settles O49, by whether the word read is the word written. -/
theorem writesChangeOneWord : Obligations.WritesChangeOneWord := by
  intro s a b v
  split
  · rename_i h; rw [h, readMem_eq, writeMem_mem, readWord_writeWord_same]
  · rename_i h; rw [readMem_eq, writeMem_mem, readWord_writeWord_other _ _ h, readMem_eq]

/-- Past its last cell a canonical memory lists nothing. -/
theorem readByte_of_memoryBytes_le {m : Memory} (h : m.wf) {n : Nat} (hn : memoryBytes ≤ n) :
    m.readByte n = unlistedByte := by
  induction m with
  | nil => rfl
  | cons c rest ih =>
    have hc : c.1 ≠ n := Nat.ne_of_lt (Nat.lt_of_lt_of_le (h.2 c List.mem_cons_self).1 hn)
    simpa [Memory.readByte, hc] using ih (wf_tail h)

/-- Words that read alike have the same two bytes. -/
theorem readByte_eq_of_readWord_eq {m k : Memory} {a : Word} (h : m.readWord a = k.readWord a) :
    m.readByte (highCell a) = k.readByte (highCell a) ∧ m.readByte (lowCell a) = k.readByte (lowCell a) := by
  have hhigh := congrArg highByte h
  have hlow := congrArg lowByte h
  simp only [Memory.readWord, highByte_wordOfBytes, lowByte_wordOfBytes] at hhigh hlow
  exact ⟨hhigh, hlow⟩

/-- Every cell address in range is one of the two of a word. -/
theorem exists_cell_eq {n : Nat} (hn : n < memoryBytes) : ∃ a : Word, n = highCell a ∨ n = lowCell a := by
  unfold memoryBytes at hn
  refine ⟨BitVec.ofNat 16 (n / 2), ?_⟩
  simp only [highCell, lowCell, BitVec.toNat_ofNat]
  omega

theorem readByte_eq_of_readWord_eq_all {m k : Memory} (hm : m.wf) (hk : k.wf)
    (h : ∀ a : Word, m.readWord a = k.readWord a) (n : Nat) : m.readByte n = k.readByte n := by
  by_cases hn : n < memoryBytes
  · obtain ⟨a, rfl | rfl⟩ := exists_cell_eq hn
    · exact (readByte_eq_of_readWord_eq (h a)).1
    · exact (readByte_eq_of_readWord_eq (h a)).2
  · rw [readByte_of_memoryBytes_le hm (Nat.le_of_not_lt hn), readByte_of_memoryBytes_le hk (Nat.le_of_not_lt hn)]

theorem readByte_cons_self (c : Host.Cell) (m : Memory) : Memory.readByte (c :: m) c.1 = c.2 := by
  simp [Memory.readByte]

/-- Below its first cell a canonical memory lists nothing. -/
theorem readByte_cons_of_lt {c : Host.Cell} {m : Memory} (h : Memory.wf (c :: m)) {n : Nat} (hn : n < c.1) :
    Memory.readByte (c :: m) n = unlistedByte := by
  refine readByte_of_lt fun d hd => ?_
  rcases List.mem_cons.mp hd with rfl | hd
  · exact hn
  · exact Nat.lt_trans hn ((List.pairwise_cons.mp h.1).1 d hd)

/-- The first address of a canonical memory is read back as listed, so no memory that reads alike begins above it. -/
theorem head_addr_le {c d : Host.Cell} {m k : Memory} (hc : Memory.wf (c :: m)) (hd : Memory.wf (d :: k))
    (h : ∀ n, Memory.readByte (c :: m) n = Memory.readByte (d :: k) n) : c.1 ≤ d.1 := by
  by_contra hlt
  have hread := h d.1
  rw [readByte_cons_of_lt hc (Nat.lt_of_not_le hlt), readByte_cons_self] at hread
  exact (hd.2 d List.mem_cons_self).2 hread.symm

/-- A canonical memory without its first cell reads as before, but for that cell. -/
theorem readByte_tail {c : Host.Cell} {m : Memory} (h : Memory.wf (c :: m)) (n : Nat) :
    Memory.readByte m n = if n = c.1 then unlistedByte else Memory.readByte (c :: m) n := by
  split
  · rename_i hn
    exact readByte_of_lt fun d hd => hn ▸ (List.pairwise_cons.mp h.1).1 d hd
  · rename_i hn
    simp [Memory.readByte, Ne.symm hn]

/-- The canonical form has one list for each reading. -/
theorem memory_eq_of_readByte_eq {m k : Memory} (hm : m.wf) (hk : k.wf) (h : ∀ n, m.readByte n = k.readByte n) :
    m = k := by
  induction m generalizing k with
  | nil =>
    cases k with
    | nil => rfl
    | cons d k =>
      have hread := h d.1
      rw [readByte_cons_self] at hread
      exact absurd hread.symm (hk.2 d List.mem_cons_self).2
  | cons c m ih =>
    cases k with
    | nil =>
      have hread := h c.1
      rw [readByte_cons_self] at hread
      exact absurd hread (hm.2 c List.mem_cons_self).2
    | cons d k =>
      have haddr : c.1 = d.1 := Nat.le_antisymm (head_addr_le hm hk h) (head_addr_le hk hm fun n => (h n).symm)
      have hbyte : c.2 = d.2 := by
        have hread := h c.1
        rwa [readByte_cons_self, haddr, readByte_cons_self] at hread
      have htail : m = k := ih (wf_tail hm) (wf_tail hk) fun n => by
        rw [readByte_tail hm, readByte_tail hk, haddr, h n]
      rw [htail, Prod.ext haddr hbyte]

/-- Settles O50: alike word by word is alike byte by byte, and then the lists agree cell by cell. -/
theorem canonicalMemoriesThatReadAlikeAreEqual : Obligations.CanonicalMemoriesThatReadAlikeAreEqual :=
  fun _ _ hm hk h => memory_eq_of_readByte_eq hm hk (readByte_eq_of_readWord_eq_all hm hk h)

/-- Storing what a word holds changes no cell of a canonical memory. -/
theorem writeWord_readWord {m : Memory} (hm : m.wf) (a : Word) : m.writeWord a (m.readWord a) = m := by
  refine canonicalMemoriesThatReadAlikeAreEqual _ _ (wf_writeWord _ _ hm) hm fun b => ?_
  by_cases hb : b = a
  · rw [hb, readWord_writeWord_same]
  · rw [readWord_writeWord_other _ _ hb]

/-! ## Resolution -/

theorem add_eq_ofNat (v w : Word) : v + w = BitVec.ofNat 16 (v.toNat + w.toNat) := by
  rw [BitVec.ofNat_add, BitVec.ofNat_toNat, BitVec.ofNat_toNat, BitVec.setWidth_eq, BitVec.setWidth_eq]

/-- Settles O22: the field is the one its form encodes to, and the sum of words is the sum modulo 2^16. -/
theorem registerPlusNextWordResolves : Obligations.RegisterPlusNextWordResolves := by
  intro r s
  rw [Operand.ofField_indNext, ← add_eq_ofNat]
  rfl

/-- Settles O23: one up and one down, as sums modulo 2^16. -/
theorem stackFieldsResolve : Obligations.StackFieldsResolve := by
  intro s
  have hup : s.sp + 1#16 = BitVec.ofNat 16 (s.sp.toNat + 1) := add_eq_ofNat _ _
  have hdown : s.sp - 1#16 = BitVec.ofNat 16 (s.sp.toNat + 0xFFFF) := by
    rw [BitVec.sub_eq_add_neg]; exact add_eq_ofNat _ _
  rw [← hup, ← hdown]
  exact ⟨rfl, rfl, rfl⟩

/-- Settles O25: both fields are fixed rows of the table of R73. -/
theorem nextWordFieldsResolve : Obligations.NextWordFieldsResolve := fun _ => ⟨rfl, rfl⟩

/-- What both resolutions leave (R75, R119, R129). -/
theorem operands_after (a b : Operand) (s : State) : (operands a b s).after =
    { s with
      pc := s.pc + BitVec.ofNat 16 (a.ext + b.ext)
      sp := s.sp + spDelta a + spDelta b
      cycles := s.cycles + s.cfg.extraWordCycles * (a.ext + b.ext) } :=
  state_eq_of_fields (operands_after_x a b s) (operands_after_pc a b s) (operands_after_sp a b s)
    (operands_after_o a b s) (operands_after_mem a b s) (operands_after_cycles a b s) (operands_after_halted a b s)
    (operands_after_diags a b s) (operands_after_cfg a b s)

/-- Settles O27: the order is `operands` itself, and what it leaves is known field by field. -/
theorem resolutionMovesOnlyPcSpAndCycles : Obligations.ResolutionMovesOnlyPcSpAndCycles :=
  fun a b s => ⟨rfl, rfl, rfl, rfl, rfl, operands_after a b s⟩

/-! ## Locations -/

theorem Loc.address_eq_some_iff {l : Loc} {a : Word} : l.address = some a ↔ l = .mem a := by
  cases l <;> simp [Loc.address]

theorem readWord_storeAt_other (m : Memory) {k : Option Word} (v : Word) {a : Word} (h : k ≠ some a) :
    (storeAt m k v).readWord a = m.readWord a := by
  cases k with
  | none => rfl
  | some b => exact readWord_writeWord_other m v fun hab => h (congrArg some hab.symm)

theorem readLoc_writeLoc_same (p w : Word) {l : Loc} (v : Word) (s : State) (h : l.isLit = false) :
    readLoc l (writeLoc p w l v s) = v := by
  cases l with
  | reg r => simp [readLoc, writeLoc_reg]
  | mem a => simp [readLoc, writeLoc_mem, Loc.address]
  | spReg => simp [readLoc, writeLoc_sp]
  | pcReg => simp [readLoc, writeLoc_pc]
  | oReg => simp [readLoc, writeLoc_o]
  | lit u => simp [Loc.isLit] at h

theorem readLoc_writeLoc_other (p w : Word) {k l : Loc} (v : Word) (s : State) (h : k ≠ l) :
    readLoc k (writeLoc p w l v s) = readLoc k s := by
  cases k with
  | reg r => simp [readLoc, writeLoc_reg, h.symm]
  | mem a =>
    have haddr : l.address ≠ some a := fun hl => h (Loc.address_eq_some_iff.mp hl).symm
    simp [readLoc, writeLoc_mem, readWord_storeAt_other _ _ haddr]
  | spReg => simp [readLoc, writeLoc_sp, h.symm]
  | pcReg => simp [readLoc, writeLoc_pc, h.symm]
  | oReg => simp [readLoc, writeLoc_o, h.symm]
  | lit u => rfl

theorem writeLoc_of_isLit (p w : Word) {l : Loc} (v : Word) (s : State) (h : l.isLit = true) :
    writeLoc p w l v s = s.raise .writeToLiteral p w := by
  cases l with
  | lit u => rfl
  | reg _ | mem _ | spReg | pcReg | oReg => cases h

/-- Settles O28, by the kinds of location. -/
theorem locationsReadWhatWasWritten : Obligations.LocationsReadWhatWasWritten :=
  fun p w _ v s => ⟨⟨fun _ => rfl, fun _ => rfl, rfl, rfl, rfl, fun _ => rfl⟩, readLoc_writeLoc_same p w v s,
    fun _ => readLoc_writeLoc_other p w v s, writeLoc_of_isLit p w v s⟩

end Sys2Proof.Machine
end

section
/-! PROOFS. The eleven instructions that write A: what one of them leaves (R152), the values of its operation as numbers
(R153-R163), and what all of them leave unchanged (R129). -/

namespace Sys2Proof.Machine

/-! ## The effect of an ALU instruction -/

theorem aluStep_writtenBack (w : Word) (base : Nat) (alu : Word → Word → AluOut) (a b : Operand) (s : State) :
    WrittenBack (operands a b s).la (alu (operands a b s).va (operands a b s).vb).res
      (alu (operands a b s).va (operands a b s).vb).onew w s (aluStep w base alu a b s) := by
  unfold WrittenBack
  cases hla : (operands a b s).la with
  | lit u => simp [aluStep_o, aluStep_diags, hla, Loc.isLit, hdrAddrOf]
  | oReg => cases horder : s.cfg.oWriteOrder <;> simp [aluStep_o, aluStep_diags, hla, horder, Loc.isLit]
  | reg r => simp [readLoc, aluStep_reg, aluStep_o, aluStep_diags, hla, Loc.isLit]
  | mem u => simp [readLoc, aluStep_mem, aluStep_o, aluStep_diags, hla, Loc.isLit, Loc.address]
  | spReg => simp [readLoc, aluStep_sp, aluStep_o, aluStep_diags, hla, Loc.isLit]
  | pcReg => simp [readLoc, aluStep_pc, aluStep_o, aluStep_diags, hla, Loc.isLit]

/-- An instruction has the effect of its opcode, its base cost and its operation. -/
theorem aluEffect {op : BitVec 4} {mk : Operand → Operand → Instr} {base : Nat}
    {res : Config → Word → Word → Word} {onew : Config → Word → Word → Option Word}
    (alu : Config → Word → Word → AluOut)
    (hencode : ∀ a b, encode (mk a b) = header op a.toField b.toField) (hwf : ∀ c a b, (mk a b).wf c = true)
    (hform : ∀ c a b, aluForm c (mk a b) = some (base, alu c, a, b))
    (hout : ∀ c va vb, alu c va vb = ⟨res c va vb, onew c va vb⟩) : AluEffect op mk base res onew := by
  intro a b s
  refine ⟨fun c => ?_, _, exec_aluForm (hform s.cfg a b), ?_, aluStep_cycles _ _ _ a b s⟩
  · rw [← hencode, decode_encode (hwf c a b)]
  · have hwritten := aluStep_writtenBack (encode (mk a b)) base (alu s.cfg) a b s
    rw [hout] at hwritten
    rwa [← hencode]

/-! ## The operations as numbers -/

theorem zext32_toNat (w : Word) : (zext32 w).toNat = w.toNat := by
  have := w.isLt
  simp only [zext32, BitVec.toNat_setWidth]
  omega

theorem lowHalf_eq (t : Wide) : lowHalf t = BitVec.ofNat 16 t.toNat := by
  apply BitVec.eq_of_toNat_eq
  simp [lowHalf, BitVec.extractLsb'_toNat]

theorem highHalf_eq (t : Wide) : highHalf t = BitVec.ofNat 16 (t.toNat / 0x10000) := by
  apply BitVec.eq_of_toNat_eq
  simp [highHalf, BitVec.extractLsb'_toNat, Nat.shiftRight_eq_div_pow]

/-- The two halves of an intermediate whose value is known modulo 2^32. -/
theorem halves_eq {t : Wide} {n : Nat} (h : t.toNat = n % 2 ^ 32) :
    halves t = ⟨BitVec.ofNat 16 n, some (BitVec.ofNat 16 (n / 0x10000))⟩ := by
  have hlow : BitVec.ofNat 16 t.toNat = BitVec.ofNat 16 n := by
    apply BitVec.eq_of_toNat_eq
    simp only [h, BitVec.toNat_ofNat]
    omega
  have hhigh : BitVec.ofNat 16 (t.toNat / 0x10000) = BitVec.ofNat 16 (n / 0x10000) := by
    apply BitVec.eq_of_toNat_eq
    simp only [h, BitVec.toNat_ofNat]
    omega
  rw [halves, lowHalf_eq, highHalf_eq, hlow, hhigh]

theorem aluAdd_eq (va vb : Word) : aluAdd va vb = ⟨BitVec.ofNat 16 (va.toNat + vb.toNat),
    some (if 0x10000 ≤ va.toNat + vb.toNat then 1#16 else 0#16)⟩ := by
  have hsum : (zext32 va + zext32 vb).toNat = (va.toNat + vb.toNat) % 2 ^ 32 := by
    rw [BitVec.toNat_add, zext32_toNat, zext32_toNat]
  have hcarry : BitVec.ofNat 16 ((va.toNat + vb.toNat) / 0x10000) =
      if 0x10000 ≤ va.toNat + vb.toNat then 1#16 else 0#16 := by
    have ha := va.isLt
    have hb := vb.isLt
    split
    · rw [show (va.toNat + vb.toNat) / 0x10000 = 1 by omega]
    · rw [show (va.toNat + vb.toNat) / 0x10000 = 0 by omega]
  rw [aluAdd, halves_eq hsum, hcarry]

theorem aluSub_eq (va vb : Word) : aluSub va vb = ⟨BitVec.ofNat 16 (va.toNat + 0x10000 - vb.toNat),
    some (if va.toNat < vb.toNat then 0xFFFF#16 else 0#16)⟩ := by
  have ha := va.isLt
  have hb := vb.isLt
  have hdiff : (zext32 va - zext32 vb).toNat = (va.toNat + 2 ^ 32 - vb.toNat) % 2 ^ 32 := by
    rw [BitVec.toNat_sub, zext32_toNat, zext32_toNat]
    omega
  have hlow : BitVec.ofNat 16 (va.toNat + 2 ^ 32 - vb.toNat) = BitVec.ofNat 16 (va.toNat + 0x10000 - vb.toNat) := by
    apply BitVec.eq_of_toNat_eq
    simp only [BitVec.toNat_ofNat]
    omega
  have hborrow : BitVec.ofNat 16 ((va.toNat + 2 ^ 32 - vb.toNat) / 0x10000) =
      if va.toNat < vb.toNat then 0xFFFF#16 else 0#16 := by
    split
    · rw [show (va.toNat + 2 ^ 32 - vb.toNat) / 0x10000 = 0xFFFF by omega]
    · rw [show (va.toNat + 2 ^ 32 - vb.toNat) / 0x10000 = 0x10000 by omega]
      rfl
  rw [aluSub, halves_eq hdiff, hlow, hborrow]

theorem aluMul_eq (va vb : Word) : aluMul va vb = ⟨BitVec.ofNat 16 (va.toNat * vb.toNat),
    some (BitVec.ofNat 16 (va.toNat * vb.toNat / 0x10000))⟩ := by
  rw [aluMul, halves_eq (BitVec.toNat_mul _ _), zext32_toNat, zext32_toNat]

theorem aluDiv_eq (c : Config) (va vb : Word) : aluDiv c.divORule va vb =
    ⟨if vb = 0#16 then 0#16 else BitVec.ofNat 16 (va.toNat / vb.toNat), some (if vb = 0#16 then 0#16 else
      match c.divORule with
      | .highHalf => 0#16
      | .fraction => BitVec.ofNat 16 (va.toNat * 0x10000 / vb.toNat))⟩ := by
  unfold aluDiv
  split
  · rfl
  · cases c.divORule <;> rfl

theorem aluMod_eq (va vb : Word) : aluMod va vb =
    ⟨if vb = 0#16 then 0#16 else BitVec.ofNat 16 (va.toNat % vb.toNat), none⟩ := by
  unfold aluMod
  split <;> rfl

theorem shiftCount_eq (c : Config) (vb : Word) : shiftCount c.shiftRule vb = countOf c vb := by
  unfold shiftCount countOf
  cases c.shiftRule <;> rfl

theorem aluShl_eq (c : Config) (va vb : Word) : aluShl c.shiftRule va vb =
    ⟨BitVec.ofNat 16 (va.toNat * 2 ^ countOf c vb),
      some (BitVec.ofNat 16 (va.toNat * 2 ^ countOf c vb / 0x10000))⟩ := by
  have hshift : (zext32 va <<< countOf c vb).toNat = va.toNat * 2 ^ countOf c vb % 2 ^ 32 := by
    rw [BitVec.toNat_shiftLeft, zext32_toNat, Nat.shiftLeft_eq]
  rw [aluShl, shiftCount_eq, halves_eq hshift]

theorem aluShr_eq (c : Config) (va vb : Word) : aluShr c.shiftRule c.shrORule va vb =
    ⟨BitVec.ofNat 16 (va.toNat / 2 ^ countOf c vb), some (match c.shrORule with
      | .highHalf => 0#16
      | .fraction => BitVec.ofNat 16 (va.toNat * 0x10000 / 2 ^ countOf c vb))⟩ := by
  have ha := va.isLt
  have hshift : (zext32 va >>> countOf c vb).toNat = va.toNat / 2 ^ countOf c vb := by
    rw [BitVec.toNat_ushiftRight, zext32_toNat, Nat.shiftRight_eq_div_pow]
  have hhigh : highHalf (zext32 va >>> countOf c vb) = 0#16 := by
    rw [highHalf_eq, hshift, Nat.div_eq_of_lt (Nat.lt_of_le_of_lt (Nat.div_le_self _ _) ha)]
  have hout : ((zext32 va <<< 16) >>> countOf c vb).toNat = va.toNat * 0x10000 / 2 ^ countOf c vb := by
    rw [BitVec.toNat_ushiftRight, BitVec.toNat_shiftLeft, zext32_toNat, Nat.shiftRight_eq_div_pow, Nat.shiftLeft_eq,
      Nat.mod_eq_of_lt (by omega)]
  simp only [aluShr, shiftCount_eq, lowHalf_eq, hshift, hhigh, hout]
  cases c.shrORule <;> rfl

/-! ## The eleven instructions -/

/-- Settles O29: the operation is the second value itself. -/
theorem setCopies : Obligations.SetCopies :=
  aluEffect (fun _ => aluSet) (fun _ _ => rfl) (fun _ _ _ => rfl) (fun _ _ _ => rfl) fun _ _ _ => rfl

/-- Settles O30: bits 31:16 of the sum are its carry. -/
theorem addLeavesSumAndCarry : Obligations.AddLeavesSumAndCarry :=
  aluEffect (fun _ => aluAdd) (fun _ _ => rfl) (fun _ _ _ => rfl) (fun _ _ _ => rfl) fun _ => aluAdd_eq

/-- Settles O31: bits 31:16 of the difference modulo 2^32 are all ones exactly when it borrows. -/
theorem subLeavesDifferenceAndBorrow : Obligations.SubLeavesDifferenceAndBorrow :=
  aluEffect (fun _ => aluSub) (fun _ _ => rfl) (fun _ _ _ => rfl) (fun _ _ _ => rfl) fun _ => aluSub_eq

/-- Settles O32: the product of two words needs no more than the 32 bits of the intermediate. -/
theorem mulLeavesBothHalves : Obligations.MulLeavesBothHalves :=
  aluEffect (fun _ => aluMul) (fun _ _ => rfl) (fun _ _ _ => rfl) (fun _ _ _ => rfl) fun _ => aluMul_eq

/-- Settles O33, by whether the divisor is zero and by `DIV_O_RULE`. -/
theorem divLeavesQuotient : Obligations.DivLeavesQuotient :=
  aluEffect (fun c => aluDiv c.divORule) (fun _ _ => rfl) (fun _ _ _ => rfl) (fun _ _ _ => rfl) aluDiv_eq

/-- Settles O34, by whether the divisor is zero. -/
theorem modLeavesRemainder : Obligations.ModLeavesRemainder :=
  aluEffect (fun _ => aluMod) (fun _ _ => rfl) (fun _ _ _ => rfl) (fun _ _ _ => rfl) fun _ => aluMod_eq

/-- Settles O35: the cut to 32 bits takes nothing from the two halves. -/
theorem shlLeavesBothHalves : Obligations.ShlLeavesBothHalves :=
  aluEffect (fun c => aluShl c.shiftRule) (fun _ _ => rfl) (fun _ _ _ => rfl) (fun _ _ _ => rfl) aluShl_eq

/-- Settles O36, by `SHR_O_RULE`; the high half of a word shifted right is zero. -/
theorem shrLeavesQuotient : Obligations.ShrLeavesQuotient :=
  aluEffect (fun c => aluShr c.shiftRule c.shrORule) (fun _ _ => rfl) (fun _ _ _ => rfl) (fun _ _ _ => rfl) aluShr_eq

/-- Settles O37: the operation is the bitwise one itself. -/
theorem andIsBitwise : Obligations.AndIsBitwise :=
  aluEffect (fun _ => aluAnd) (fun _ _ => rfl) (fun _ _ _ => rfl) (fun _ _ _ => rfl) fun _ _ _ => rfl

/-- Settles O38: the operation is the bitwise one itself. -/
theorem borIsBitwise : Obligations.BorIsBitwise :=
  aluEffect (fun _ => aluBor) (fun _ _ => rfl) (fun _ _ _ => rfl) (fun _ _ _ => rfl) fun _ _ _ => rfl

/-- Settles O39: the operation is the bitwise one itself. -/
theorem xorIsBitwise : Obligations.XorIsBitwise :=
  aluEffect (fun _ => aluXor) (fun _ _ => rfl) (fun _ _ _ => rfl) (fun _ _ _ => rfl) fun _ _ _ => rfl

/-! ## What they leave unchanged -/

theorem aluForm_of_mem_aluInstrs (c : Config) {a b : Operand} {i : Instr} (h : i ∈ aluInstrs a b) :
    ∃ base alu, aluForm c i = some (base, alu, a, b) ∧
      (i ∈ [.set a b, .mod a b, .and a b, .bor a b, .xor a b] → KeepsO alu) := by
  simp only [aluInstrs, List.mem_cons, List.not_mem_nil, or_false] at h
  rcases h with rfl | rfl | rfl | rfl | rfl | rfl | rfl | rfl | rfl | rfl | rfl
  · exact ⟨_, _, rfl, fun _ => aluSet_keepsO⟩
  · exact ⟨_, _, rfl, by simp⟩
  · exact ⟨_, _, rfl, by simp⟩
  · exact ⟨_, _, rfl, by simp⟩
  · exact ⟨_, _, rfl, by simp⟩
  · exact ⟨_, _, rfl, fun _ => aluMod_keepsO⟩
  · exact ⟨_, _, rfl, by simp⟩
  · exact ⟨_, _, rfl, by simp⟩
  · exact ⟨_, _, rfl, fun _ => aluAnd_keepsO⟩
  · exact ⟨_, _, rfl, fun _ => aluBor_keepsO⟩
  · exact ⟨_, _, rfl, fun _ => aluXor_keepsO⟩

/-- Settles O40: all eleven are one `aluStep`, whose fields depend on the destination alone. -/
theorem aluInstructionsFrame : Obligations.AluInstructionsFrame := by
  intro a b i s t hi h
  obtain ⟨base, alu, hform, hkeeps⟩ := aluForm_of_mem_aluInstrs s.cfg hi
  rw [exec_aluForm hform, Host.Outcome.next.injEq] at h
  subst h
  refine ⟨fun q hla => ?_, fun hla => ?_, fun hla => ?_, fun hla hmem => ?_, fun n hn => ?_, aluStep_halted ..,
    aluStep_cfg .., fun hla => ?_⟩
  · rw [aluStep_reg, if_neg hla]
  · rw [aluStep_pc, if_neg hla]
  · rw [aluStep_sp, if_neg hla]
  · rw [aluStep_o, if_neg hla, hkeeps hmem, Option.getD_none]
  · rw [aluStep_mem, readByte_storeAt_other _ _ _ hn]
  · simp [aluStep_diags, hla]

/-- Settles O41: the word copied onto itself is the one the canonical form already holds. -/
theorem selfCopyLeavesMemory : Obligations.SelfCopyLeavesMemory := by
  intro r s hwf
  have hexec : exec (.set (.ind r) (.ind r)) s = .next ((s.addCycles 1).writeMem (s.reg r) (s.readMem (s.reg r))) := by
    simp only [exec, execSet, aluStep, aluWriteBack]
    cases (((operands (.ind r) (.ind r) s).after.addCycles 1)).cfg.oWriteOrder <;> rfl
  rw [hexec, State.writeMem, addCycles_mem, readMem_eq, writeWord_readWord hwf]
  rfl

end Sys2Proof.Machine
end

section
/-! PROOFS. The conditionals (R180-R185), the non-basic forms (R190-R197), and what holds of all eighteen instructions:
where they store (R51) and that none reads the cycle counter or the diagnostics (R32, R34). -/

namespace Sys2Proof.Machine

/-! ## Conditionals -/

/-- A conditional has the effect of its opcode when its test decides the statement's condition. -/
theorem condEffect {op : BitVec 4} {mk : Operand → Operand → Instr} {holds : Word → Word → Prop}
    (cond : Word → Word → Bool)
    (hencode : ∀ a b, encode (mk a b) = header op a.toField b.toField) (hwf : ∀ c a b, (mk a b).wf c = true)
    (hform : ∀ a b, condForm (mk a b) = some (cond, a, b))
    (hcond : ∀ va vb, cond va vb = true ↔ holds va vb) : CondEffect op mk holds := by
  intro a b s
  refine ⟨fun c => ?_, _, exec_condForm (hform a b), ?_, fun hholds => ?_, fun hholds => ?_⟩
  · rw [← hencode, decode_encode (hwf c a b)]
  · exact state_eq_of_fields (condStep_x cond a b s) rfl (condStep_sp cond a b s) (condStep_o cond a b s)
      (condStep_mem cond a b s) (condStep_cycles cond a b s) (condStep_halted cond a b s) (condStep_diags cond a b s)
      (condStep_cfg cond a b s)
  · rw [condStep_pc, if_pos ((hcond _ _).mpr hholds), BitVec.add_zero]
  · rw [condStep_pc, if_neg fun h => hholds ((hcond _ _).mp h)]

/-- The test of IFB against zero asks for a bit set in both words (R184). -/
theorem and_ne_zero_iff (va vb : Word) :
    va &&& vb ≠ 0x0000#16 ↔ ∃ k, va.getLsbD k = true ∧ vb.getLsbD k = true := by
  have hbits : ∀ k, (va &&& vb).getLsbD k = true ↔ va.getLsbD k = true ∧ vb.getLsbD k = true := fun k => by
    rw [BitVec.getLsbD_and, Bool.and_eq_true]
  simp only [← hbits]
  constructor
  · intro hne
    by_contra hnone
    push Not at hnone
    exact hne (BitVec.eq_of_getLsbD_eq fun k _ => by simpa using hnone k)
  · rintro ⟨k, hk⟩ hzero
    simp [hzero] at hk

/-- Settles O42: the test decides the condition as it stands. -/
theorem ifeSkipsUnlessEqual : Obligations.IfeSkipsUnlessEqual :=
  condEffect condIfe (fun _ _ => rfl) (fun _ _ _ => rfl) (fun _ _ => rfl) fun _ _ => decide_eq_true_iff

/-- Settles O43: the test decides the condition as it stands. -/
theorem ifnSkipsUnlessDifferent : Obligations.IfnSkipsUnlessDifferent :=
  condEffect condIfn (fun _ _ => rfl) (fun _ _ _ => rfl) (fun _ _ => rfl) fun _ _ => decide_eq_true_iff

/-- Settles O44: the test decides the condition as it stands. -/
theorem ifgSkipsUnlessGreater : Obligations.IfgSkipsUnlessGreater :=
  condEffect condIfg (fun _ _ => rfl) (fun _ _ _ => rfl) (fun _ _ => rfl) fun _ _ => decide_eq_true_iff

/-- Settles O45: the conjunction is not zero exactly when the values share a set bit. -/
theorem ifbSkipsUnlessCommonBit : Obligations.IfbSkipsUnlessCommonBit :=
  condEffect condIfb (fun _ _ => rfl) (fun _ _ _ => rfl) (fun _ _ => rfl) fun va vb =>
    decide_eq_true_iff.trans (and_ne_zero_iff va vb)

theorem exists_condForm_of_false {i : Instr} {a b : Operand} {va vb : Word}
    (h : i = .ife a b ∧ va ≠ vb ∨ i = .ifn a b ∧ va = vb ∨ i = .ifg a b ∧ va.toNat ≤ vb.toNat ∨
      i = .ifb a b ∧ va &&& vb = 0#16) :
    ∃ cond, condForm i = some (cond, a, b) ∧ cond va vb = false := by
  obtain ⟨rfl, hv⟩ | ⟨rfl, hv⟩ | ⟨rfl, hv⟩ | ⟨rfl, hv⟩ := h
  · exact ⟨condIfe, rfl, by simp [condIfe, hv]⟩
  · exact ⟨condIfn, rfl, by simp [condIfn, hv]⟩
  · exact ⟨condIfg, rfl, by simp [condIfg, hv]⟩
  · exact ⟨condIfb, rfl, by simp [condIfb, hv]⟩

/-- Settles O19: a conditional leaves memory as it was, so the next header is the old word at the new pc. -/
theorem falseConditionSkipsExactlyOneWord : Obligations.FalseConditionSkipsExactlyOneWord := by
  intro s a b hs hcase
  obtain ⟨cond, hform, hfalse⟩ := exists_condForm_of_false hcase
  refine ⟨_, (step_of_running hs).trans (exec_condForm hform), by simpa using hs, ?_⟩
  have hpc : (condStep cond a b s.incPc).pc = s.pc + BitVec.ofNat 16 (s.current.length s.cfg) + 1#16 := by
    rw [condStep_pc, hfalse, incPc_pc_add, Instr.length, extraWords_of_condForm hform]
    rfl
  rw [State.headerWord, hpc, readMem_eq, condStep_mem]
  rfl

/-! ## Non-basic forms -/

/-- Settles O46: field by field, after the operand alone is resolved. -/
theorem jsrPushesAndJumps : Obligations.JsrPushesAndJumps := by
  intro b s
  rw [exec_jsr]
  congr 1
  apply state_eq_of_fields <;> simp [resolve_sp, resolve_pc, resolve_cycles]

/-- Settles O47: field by field. -/
theorem haltSetsTheHaltFlag : Obligations.HaltSetsTheHaltFlag := by
  intro subop b s
  rw [exec_halt]
  congr 1
  apply state_eq_of_fields <;>
    simp [nonBasicOperand_sp, nonBasicOperand_pc, nonBasicOperand_cycles, extraWords_halt]

/-- Settles O48: field by field. -/
theorem reservedSubOpcodeOnlyReports : Obligations.ReservedSubOpcodeOnlyReports := by
  intro subop b s
  rw [exec_reserved, hdrAddrOf]
  congr 1
  apply state_eq_of_fields <;> simp [nonBasicOperand_sp, nonBasicOperand_pc, nonBasicOperand_cycles]

/-- The return of R208: `SET PC, POP` jumps to the word on top of the stack and takes it off. -/
theorem exec_set_pc_pop (s : State) : exec (.set .pc .pop) s =
    .next { s with pc := s.readMem s.sp, sp := s.sp + 1#16, cycles := s.cycles + 1 } := by
  simp only [exec, execSet, aluStep, aluWriteBack]
  cases ((operands .pc .pop s).after.addCycles 1).cfg.oWriteOrder <;> rfl

/-- What the call leaves for the return: the return address on top of the stack. -/
theorem step_of_current_jsr {s : State} {b : Operand} (hs : s.halted = false) (hcur : s.current = .jsr b) :
    ∃ t, step s = .next t ∧ t.x = s.x ∧ t.o = s.o ∧ t.halted = false ∧ t.sp + 1#16 = s.sp + spDelta b ∧
      t.readMem t.sp = s.pc + BitVec.ofNat 16 (1 + b.ext) := by
  have hstep := jsrPushesAndJumps b s.incPc
  rw [← hcur, ← step_of_running hs] at hstep
  refine ⟨_, hstep, rfl, rfl, hs, BitVec.sub_add_cancel _ _, ?_⟩
  rw [readMem_eq, readWord_writeWord_same, incPc_pc_add]

theorem step_of_headerWord_set_pc_pop {t : State} (ht : t.halted = false) (hret : t.headerWord = 0x61C1#16) :
    step t = .next { t with pc := t.readMem t.sp, sp := t.sp + 1#16, cycles := t.cycles + 1 } := by
  have hcur : t.current = .set .pc .pop := by
    rw [State.current, hret]; exact decode_encode (i := .set .pc .pop) rfl
  rw [step_of_running ht, hcur, exec_set_pc_pop]
  rfl

/-- Settles O20: the return reads the word that the call has just stored, one below where it leaves SP. -/
theorem returnUndoesCall : Obligations.ReturnUndoesCall := by
  intro s b hs hcur
  obtain ⟨t, hstep, hx, ho, hhalted, hsp, htop⟩ := step_of_current_jsr hs hcur
  exact ⟨t, hstep, fun hret => ⟨_, step_of_headerWord_set_pc_pop hhalted hret, htop, hsp, hx, ho, hhalted⟩⟩

/-! ## All eighteen instructions -/

theorem storeAddress_of_aluForm {c : Config} {i : Instr} {base : Nat} {alu : Word → Word → AluOut} {a b : Operand}
    (h : aluForm c i = some (base, alu, a, b)) (s : State) : storeAddress i s = (operands a b s).la.address := by
  cases i <;> simp only [aluForm, Option.some.injEq, Prod.mk.injEq, reduceCtorEq] at h <;>
    obtain ⟨-, -, rfl, rfl⟩ := h <;> rfl

/-- Settles O17: of the five shapes only the ALU step and JSR's push touch memory, each in one word. -/
theorem instructionsStoreOnlyAtTheirAddress : Obligations.InstructionsStoreOnlyAtTheirAddress := by
  intro i s t n h hn
  obtain ⟨base, alu, a, b, hform⟩ | ⟨cond, a, b, hform⟩ | ⟨b, rfl⟩ | ⟨subop, b, rfl⟩ | ⟨subop, b, rfl⟩ :=
    exec_shapes i s
  · rw [storeAddress_of_aluForm hform] at hn
    rw [exec_aluForm hform, Host.Outcome.next.injEq] at h
    rw [← h, aluStep_mem, readByte_storeAt_other _ _ _ hn]
  · rw [exec_condForm hform, Host.Outcome.next.injEq] at h
    rw [← h, condStep_mem]
  · rw [exec_jsr, Host.Outcome.next.injEq] at h
    rw [← h, addCycles_mem, setPc_mem, pushWord_mem, resolve_mem]
    exact readByte_storeAt_other _ (storeAddress (.jsr b) s) _ hn
  · rw [exec_halt, Host.Outcome.next.injEq] at h
    rw [← h, halt_mem, nonBasicOperand_mem]
  · rw [exec_reserved, Host.Outcome.next.injEq] at h
    rw [← h, raise_mem, nonBasicOperand_mem]

/-! ## The log -/

/-- The state with another cycle counter and another diagnostic output: the two fields no instruction reads. -/
def State.withLog (s : State) (n : Nat) (d : List Diag) : State := { s with cycles := n, diags := d }

section WithLog
variable (s : State) (n : Nat) (d : List Diag)

@[simp] theorem withLog_x : (s.withLog n d).x = s.x := rfl
@[simp] theorem withLog_pc : (s.withLog n d).pc = s.pc := rfl
@[simp] theorem withLog_sp : (s.withLog n d).sp = s.sp := rfl
@[simp] theorem withLog_o : (s.withLog n d).o = s.o := rfl
@[simp] theorem withLog_mem : (s.withLog n d).mem = s.mem := rfl
@[simp] theorem withLog_cycles : (s.withLog n d).cycles = n := rfl
@[simp] theorem withLog_halted : (s.withLog n d).halted = s.halted := rfl
@[simp] theorem withLog_diags : (s.withLog n d).diags = d := rfl
@[simp] theorem withLog_cfg : (s.withLog n d).cfg = s.cfg := rfl
@[simp] theorem withLog_reg (q : Reg) : (s.withLog n d).reg q = s.reg q := rfl

@[simp] theorem readLoc_withLog (l : Loc) : readLoc l (s.withLog n d) = readLoc l s := by cases l <;> rfl

theorem resolve_withLog (p : Operand) : resolve p (s.withLog n d) =
    ((resolve p s).1, (resolve p s).2.withLog (n + s.cfg.extraWordCycles * p.ext) d) := by
  cases p <;> simp [resolve, Operand.ext, Operand.hasExtra] <;> rfl

@[simp] theorem operands_la_withLog (a b : Operand) : (operands a b (s.withLog n d)).la = (operands a b s).la := by
  simp [operands, resolve_withLog]

@[simp] theorem operands_va_withLog (a b : Operand) : (operands a b (s.withLog n d)).va = (operands a b s).va := by
  simp [operands, resolve_withLog]

@[simp] theorem operands_vb_withLog (a b : Operand) : (operands a b (s.withLog n d)).vb = (operands a b s).vb := by
  simp [operands, resolve_withLog]

end WithLog

/-- A run of `i` from `s` to `t` adds to the log and does the same over every other log. -/
def AddsToLog (i : Instr) (s t : State) : Prop :=
  ∃ (k : Nat) (e : List Diag), t.cycles = s.cycles + k ∧ t.diags = s.diags ++ e ∧
    ∀ n d, exec i (s.withLog n d) = .next (t.withLog (n + k) (d ++ e))

theorem addsToLog_of_aluForm {i : Instr} {s : State} {base : Nat} {alu : Word → Word → AluOut} {a b : Operand}
    (h : aluForm s.cfg i = some (base, alu, a, b)) : AddsToLog i s (aluStep (encode i) base alu a b s) := by
  refine ⟨base + s.cfg.extraWordCycles * (a.ext + b.ext),
    if (operands a b s).la.isLit then [⟨.writeToLiteral, hdrAddrOf s, encode i⟩] else [], ?_, ?_, fun n d => ?_⟩
  · rw [aluStep_cycles, Nat.add_assoc]
  · rw [aluStep_diags]; split <;> simp
  · rw [exec_aluForm (s := s.withLog n d) h]
    congr 1
    apply state_eq_of_fields
    · apply x_eq_of_reg; simp [aluStep_reg]
    · simp [aluStep_pc]
    · simp [aluStep_sp]
    · simp [aluStep_o]
    · simp [aluStep_mem]
    · simp [aluStep_cycles, Nat.add_assoc]
    · simp
    · rw [aluStep_diags]; simp [hdrAddrOf]; split <;> simp
    · simp

theorem addsToLog_of_condForm {i : Instr} {s : State} {cond : Word → Word → Bool} {a b : Operand}
    (h : condForm i = some (cond, a, b)) : AddsToLog i s (condStep cond a b s) := by
  refine ⟨2 + s.cfg.extraWordCycles * (a.ext + b.ext), [], ?_, by simp, fun n d => ?_⟩
  · rw [condStep_cycles, Nat.add_assoc]
  · rw [exec_condForm h]
    congr 1
    apply state_eq_of_fields <;> simp [condStep_pc, condStep_sp, condStep_cycles, Nat.add_assoc]

theorem addsToLog_jsr {b : Operand} {s t : State} (h : exec (.jsr b) s = .next t) : AddsToLog (.jsr b) s t := by
  rw [jsrPushesAndJumps, Host.Outcome.next.injEq] at h
  subst h
  refine ⟨s.cfg.extraWordCycles * b.ext + s.cfg.jsrCycles, [], Nat.add_assoc _ _ _, by simp, fun n d => ?_⟩
  rw [jsrPushesAndJumps, resolve_withLog, readLoc_withLog]
  simp [State.withLog, Nat.add_assoc]

theorem addsToLog_halt {subop : OpField} {b : Operand} {s t : State} (h : exec (.halt subop b) s = .next t) :
    AddsToLog (.halt subop b) s t := by
  rw [haltSetsTheHaltFlag, Host.Outcome.next.injEq] at h
  subst h
  refine ⟨_, [], rfl, by simp, fun n d => ?_⟩
  rw [haltSetsTheHaltFlag]
  simp [State.withLog]

theorem addsToLog_reserved {subop : OpField} {b : Operand} {s t : State} (h : exec (.reserved subop b) s = .next t) :
    AddsToLog (.reserved subop b) s t := by
  rw [reservedSubOpcodeOnlyReports, Host.Outcome.next.injEq] at h
  subst h
  refine ⟨_, _, rfl, rfl, fun n d => ?_⟩
  rw [reservedSubOpcodeOnlyReports]
  rfl

/-- No instruction reads the log (R32, R34). -/
theorem addsToLog_of_exec {i : Instr} {s t : State} (h : exec i s = .next t) : AddsToLog i s t := by
  obtain ⟨base, alu, a, b, hform⟩ | ⟨cond, a, b, hform⟩ | ⟨b, rfl⟩ | ⟨subop, b, rfl⟩ | ⟨subop, b, rfl⟩ :=
    exec_shapes i s
  · rw [exec_aluForm hform, Host.Outcome.next.injEq] at h
    exact h ▸ addsToLog_of_aluForm hform
  · rw [exec_condForm hform, Host.Outcome.next.injEq] at h
    exact h ▸ addsToLog_of_condForm hform
  · exact addsToLog_jsr h
  · exact addsToLog_halt h
  · exact addsToLog_reserved h

/-- Settles O18: a halted step adds nothing, a running one what its instruction adds. -/
theorem cyclesAndDiagnosticsAreNeverRead : Obligations.CyclesAndDiagnosticsAreNeverRead := by
  intro s t n d h
  obtain ⟨hs, rfl⟩ | ⟨hs, hexec⟩ := step_cases h
  · exact ⟨0, [], rfl, (List.append_nil _).symm, by rw [List.append_nil]; exact step_of_halted hs⟩
  · obtain ⟨k, e, hcycles, hdiags, hlog⟩ := addsToLog_of_exec hexec
    exact ⟨k, e, hcycles, hdiags, (step_of_running (s := s.withLog n d) hs).trans (hlog n d)⟩

end Sys2Proof.Machine
end

section
/-! PROOFS. The machine after reset and after the load of an image (R231, R234). -/

namespace Sys2Proof.Machine

/-! ## Reset and load -/

theorem readWord_nil (a : Word) : Memory.readWord [] a = 0#16 := by
  simp only [Memory.readWord, Memory.readByte]
  decide

theorem wf_nil : Memory.wf [] := ⟨List.Pairwise.nil, fun _ hc => absurd hc List.not_mem_nil⟩

/-- The default fill needs no cells (log entry 2). -/
theorem ofWords_zero : Memory.ofWords (fun _ => 0#16) = [] :=
  canonicalMemoriesThatReadAlikeAreEqual _ _ (wf_ofWords _) wf_nil fun a => by rw [readWord_ofWords, readWord_nil]

theorem reset_reg (r : Reg) : State.reset.reg r = 0#16 := by
  cases r <;> rfl

/-- Settles O51: the values of `State.reset` and of the defaults as they stand. -/
theorem resetStateUnderTheDefaults : Obligations.ResetStateUnderTheDefaults :=
  ⟨⟨wf_nil, by decide⟩, rfl, rfl, rfl, reset_reg, readWord_nil, rfl, rfl, rfl, rfl, rfl, rfl, rfl, rfl, rfl, rfl, rfl⟩

theorem imageWord_of_lt (fill : Word → Word) {image : List Word} {k : Nat} (hk : k < image.length)
    (himage : image.length ≤ memoryWords) : imageWord fill image (BitVec.ofNat 16 k) = image[k] := by
  have haddr : (BitVec.ofNat 16 k).toNat = k := by
    rw [BitVec.toNat_ofNat]; exact Nat.mod_eq_of_lt (Nat.lt_of_lt_of_le hk himage)
  rw [imageWord, haddr, List.getElem?_eq_getElem hk, Option.getD_some]

theorem imageWord_of_le (fill : Word → Word) {image : List Word} {a : Word} (ha : image.length ≤ a.toNat) :
    imageWord fill image a = fill a := by
  rw [imageWord, List.getElem?_eq_none ha, Option.getD_none]

/-- Settles O52: the memory is canonical and reads as the image, then as the fill. -/
theorem loadLeavesTheImageFromAddressZero : Obligations.LoadLeavesTheImageFromAddressZero := by
  intro c p image
  constructor
  · intro himage
    refine ⟨_, bootState_of_le c p himage, rfl, rfl, rfl, rfl, rfl, rfl, rfl, rfl, fun hc => ⟨wf_ofWords _, hc⟩,
      fun k hk => ?_, fun a ha => ?_⟩
    · rw [readMem_eq, readWord_ofWords, imageWord_of_lt _ hk himage]
    · rw [readMem_eq, readWord_ofWords, imageWord_of_le _ ha]
  · intro himage
    exact if_neg (Nat.not_le_of_lt himage)

/-- Settles O53: an empty image leaves the default fill, which lists no cell. -/
theorem resetIsTheLoadOfAnEmptyImage : Obligations.ResetIsTheLoadOfAnEmptyImage := by
  have hfill : imageWord defaultReset.memFill [] = fun _ => 0#16 := rfl
  rw [Obligations.ResetIsTheLoadOfAnEmptyImage, bootState_of_le _ _ (Nat.zero_le _), hfill, ofWords_zero]
  rfl

end Sys2Proof.Machine
end

section
/-! PROOFS. The assembler's output: hex numerals and ROM text read back (R88, R93, R232), and the sizes of the two
passes agree (R92). -/

namespace Sys2Proof.Machine

/-! ## Hex digits -/

theorem hexValue_hexDigit {n : Nat} (h : n < 16) : hexValue (hexDigit n) = some n := by
  have hall : ∀ i : Fin 16, hexValue (hexDigit i) = some i.val := by decide
  exact hall ⟨n, h⟩

theorem hexDigit_ne_closeBrace {n : Nat} (h : n < 16) : hexDigit n ≠ closeBrace := by
  have hall : ∀ i : Fin 16, hexDigit i ≠ closeBrace := by decide
  exact hall ⟨n, h⟩

/-- The four digits of a word, bits 15:12 first. -/
def wordDigits (w : Word) : List Nat :=
  [w.toNat / 0x1000 % 16, w.toNat / 0x100 % 16, w.toNat / 0x10 % 16, w.toNat % 16]

theorem renderHex_eq (w : Word) : renderHex w = (wordDigits w).map hexDigit := rfl

theorem lt_of_mem_wordDigits {w : Word} {n : Nat} (h : n ∈ wordDigits w) : n < 16 := by
  simp only [wordDigits, List.mem_cons, List.not_mem_nil, or_false] at h
  omega

theorem wordDigits_value (w : Word) :
    w.toNat / 0x1000 % 16 * 0x1000 + w.toNat / 0x100 % 16 * 0x100 + w.toNat / 0x10 % 16 * 0x10 + w.toNat % 16 =
      w.toNat := by
  have := w.isLt
  omega

theorem filterMap_hexValue_map_hexDigit {ds : List Nat} (h : ∀ d ∈ ds, d < 16) :
    (ds.map hexDigit).filterMap hexValue = ds := by
  induction ds with
  | nil => rfl
  | cons d ds ih =>
    rw [List.map_cons, List.filterMap_cons_some (hexValue_hexDigit (h d List.mem_cons_self)),
      ih fun e he => h e (List.mem_cons_of_mem d he)]

/-! ## Hex numerals -/

theorem digitsValue_renderHex (w : Word) : digitsValue 16 (renderHex w) = some w.toNat := by
  have hdigit : ∀ n : Nat, hexValue (hexDigit (n % 16)) = some (n % 16) := fun n =>
    hexValue_hexDigit (Nat.mod_lt n (by decide))
  have hlt : ∀ n : Nat, n % 16 < 16 := fun n => Nat.mod_lt n (by decide)
  have hvalue : ((w.toNat / 0x1000 % 16 * 16 + w.toNat / 0x100 % 16) * 16 + w.toNat / 0x10 % 16) * 16 + w.toNat % 16 =
      w.toNat := by
    have := w.isLt
    omega
  simp [digitsValue, renderHex, hdigit, hlt, hvalue]

/-- Settles O57: the digits spell the word, which is at most 0xFFFF. -/
theorem hexNumeralsRoundTrip : Obligations.HexNumeralsRoundTrip := by
  intro w
  have hw : w.toNat ≤ 0xFFFF := Nat.le_of_lt_succ w.isLt
  simp only [parseNum, digitsValue_renderHex, hw, if_true, BitVec.ofNat_toNat, BitVec.setWidth_eq]

/-! ## ROM text -/

/-- The first doubled `c` begins where a text without `c` ends. -/
theorem findMarker_append {c : Char} {l : List Char} (r : List Char) (h : c ∉ l) :
    findMarker c (l ++ c :: c :: r) = some l.length := by
  induction l with
  | nil => simp [findMarker]
  | cons x l ih =>
    have hx : x ≠ c := fun hx => h (hx ▸ List.mem_cons_self)
    have hl : c ∉ l := fun hl => h (List.mem_cons_of_mem x hl)
    simp [findMarker, hx, ih hl]

/-- The text between the markers of a ROM: a newline, and a line for each word (R93). -/
def romBody (ws : List Word) : List Char := '\n' :: ws.flatMap (fun w => renderHex w ++ ['\n'])

theorem renderRom_eq (ws : List Word) :
    renderRom ws = openBrace :: openBrace :: romBody ws ++ closeBrace :: closeBrace :: ['\n'] := by
  simp [renderRom, romBody]

theorem filterMap_hexValue_romBody (ws : List Word) : (romBody ws).filterMap hexValue = ws.flatMap wordDigits := by
  have hline : ∀ w : Word, (renderHex w ++ ['\n']).filterMap hexValue = wordDigits w := fun w => by
    rw [List.filterMap_append, renderHex_eq, filterMap_hexValue_map_hexDigit fun _ => lt_of_mem_wordDigits,
      show ['\n'].filterMap hexValue = [] from rfl, List.append_nil]
  rw [romBody, List.filterMap_cons_none rfl, List.filterMap_flatMap]
  simp only [hline]

theorem closeBrace_not_mem_romBody (ws : List Word) : closeBrace ∉ romBody ws := by
  have hnewline : closeBrace ≠ '\n' := by decide
  have hline : ∀ w : Word, closeBrace ∉ renderHex w := fun w => by
    rw [renderHex_eq, List.mem_map]
    rintro ⟨d, hd, heq⟩
    exact hexDigit_ne_closeBrace (lt_of_mem_wordDigits hd) heq
  simp [romBody, hnewline, hline]

theorem groupDigits_flatMap_wordDigits (ws : List Word) : groupDigits (ws.flatMap wordDigits) = some ws := by
  induction ws with
  | nil => rfl
  | cons w ws ih =>
    rw [List.flatMap_cons, wordDigits]
    simp only [List.cons_append, List.nil_append, groupDigits, ih, Option.map_some, wordDigits_value,
      BitVec.ofNat_toNat, BitVec.setWidth_eq]

/-- Settles O54: the markers stand around the body, whose hex digits are those of the words in order. -/
theorem romTextRoundTrip : Obligations.RomTextRoundTrip := by
  intro ws
  have hopen : findMarker openBrace (renderRom ws) = some 0 := rfl
  have hclose : findMarker closeBrace (renderRom ws) = some ((romBody ws).length + 2) := by
    have hnot : closeBrace ∉ openBrace :: openBrace :: romBody ws := by
      have hbrace : closeBrace ≠ openBrace := by decide
      simp [hbrace, closeBrace_not_mem_romBody]
    rw [renderRom_eq, findMarker_append _ hnot]
    rfl
  have hbody : ((renderRom ws).drop (0 + 2)).take ((romBody ws).length + 2 - (0 + 2)) = romBody ws := by
    rw [renderRom_eq]; simp
  simp only [parseRom, hopen, hclose, hbody, filterMap_hexValue_romBody, groupDigits_flatMap_wordDigits]
  rfl

/-! ## Sizes -/

theorem AsmOperand.length_resolved {labels : List (List Char × Nat)} {p : AsmOperand} {v : Operand × Option Word}
    (h : p.resolved labels = .ok v) : v.2.toList.length = p.size := by
  cases p with
  | code q extra => cases h; cases extra <;> rfl
  | label name =>
    simp only [AsmOperand.resolved] at h
    split at h <;> cases h
    rfl

theorem AsmInstr.size_jsr (op : BitVec 4) (b : AsmOperand) : AsmInstr.size ⟨op, none, b⟩ = 1 + b.size := rfl

theorem AsmInstr.size_basic (op : BitVec 4) (a b : AsmOperand) :
    AsmInstr.size ⟨op, some a, b⟩ = 1 + a.size + b.size := rfl

/-- Settles O56: one header, and the extra words that each resolved operand carries. -/
theorem passTwoEmitsWhatPassOneCounted : Obligations.PassTwoEmitsWhatPassOneCounted := by
  intro labels i ws h
  obtain ⟨op, a, b⟩ := i
  simp only [AsmInstr.emit] at h
  cases hb : b.resolved labels with
  | error e => rw [hb] at h; cases h
  | ok vb =>
    rw [hb] at h
    cases a with
    | none =>
      cases h
      rw [List.length_cons, AsmOperand.length_resolved hb, AsmInstr.size_jsr, Nat.add_comm]
    | some p =>
      cases ha : p.resolved labels with
      | error e => simp only [ha] at h; cases h
      | ok va =>
        simp only [ha] at h
        cases h
        rw [List.length_cons, List.length_append, AsmOperand.length_resolved ha, AsmOperand.length_resolved hb,
          AsmInstr.size_basic]
        omega

end Sys2Proof.Machine
end
